-- ==== Sys2Proof/Word.lean ====
section
/-! DEFINITION. The word types of the block and their plainest arithmetic (00_scope.md R6, R8, R10). -/

namespace Sys2Proof

/-- One 8-bit value: a V register, a timer, a memory byte, the immediate nn. -/
abbrev Byte := BitVec 8

/-- One 16-bit value: an opcode, pc, I, a stack slot. -/
abbrev Word := BitVec 16

/-- A general register number, V[0]..V[15]; a nibble is always in range (R52). -/
abbrev Reg := Fin 16

/-- `zext_16` of a byte (R8). -/
abbrev Byte.toWord (b : Byte) : Word := b.setWidth 16

/-- `zext_16` of a 12-bit address nnn (R52). -/
abbrev addrWord (nnn : BitVec 12) : Word := nnn.setWidth 16

/-- VF, the register that is also the flag output (R14). -/
abbrev vf : Reg := 15

end Sys2Proof
end

