-- ==== Sys2Proof/Config.lean ====
section
/-! DEFINITION. The parameters the spec fixes (00_scope.md R6) and the free draw it leaves open (R7). -/

namespace Sys2Proof.Config

/-- Memory bytes; the addresses are 0x000..0xFFF (R6, R35). -/
def memSize : Nat := 4096

/-- Where the font stands (R6, R37). -/
def fontBase : Nat := 0x050

/-- 16 glyphs of 5 bytes (R6, R38). -/
def fontSize : Nat := 80

/-- The entry point and the place `load` writes to (R6, R29). -/
def progStart : Nat := 0x200

/-- The longest program `load` accepts (R6, R29). -/
def progMax : Nat := 3584

/-- The highest pc a fetch succeeds at (R40). -/
def lastFetch : Nat := 0xFFE

/-- `RAND` (R7, R92): the byte `randomByte()` returns at the k-th draw.
DESIGN CHOICE (log entry 4): safe. An uninterpreted constant, so nothing can be proved of a value of it. -/
opaque randomByte : Nat → Byte

end Sys2Proof.Config
end

