-- ==== Sys2Proof/Syntax.lean ====
section
/-! DEFINITION. The 34 instructions of the opcode map (30_encoding.md R54), its rows, and the host's operations (10_state.md R27). -/

namespace Sys2Proof

/-- One constructor per row of the opcode map, in its order (R54), with the operand fields of R51.
`shr` and `shl` keep the y field they ignore (R56), so that an instruction determines its word. -/
inductive Instr where
  /-- `00E0` CLS (R101) -/
  | cls
  /-- `00EE` RET (R68) -/
  | ret
  /-- `1nnn` JP nnn (R69) -/
  | jp (nnn : BitVec 12)
  /-- `2nnn` CALL nnn (R70) -/
  | call (nnn : BitVec 12)
  /-- `3xnn` SE Vx, nn (R73) -/
  | seImm (x : Reg) (nn : Byte)
  /-- `4xnn` SNE Vx, nn (R74) -/
  | sneImm (x : Reg) (nn : Byte)
  /-- `5xy0` SE Vx, Vy (R75) -/
  | seReg (x y : Reg)
  /-- `6xnn` LD Vx, nn (R81) -/
  | ldImm (x : Reg) (nn : Byte)
  /-- `7xnn` ADD Vx, nn (R82) -/
  | addImm (x : Reg) (nn : Byte)
  /-- `8xy0` LD Vx, Vy (R83) -/
  | ldReg (x y : Reg)
  /-- `8xy1` OR Vx, Vy (R84) -/
  | orReg (x y : Reg)
  /-- `8xy2` AND Vx, Vy (R85) -/
  | andReg (x y : Reg)
  /-- `8xy3` XOR Vx, Vy (R86) -/
  | xorReg (x y : Reg)
  /-- `8xy4` ADD Vx, Vy (R87) -/
  | addReg (x y : Reg)
  /-- `8xy5` SUB Vx, Vy (R88) -/
  | sub (x y : Reg)
  /-- `8xy6` SHR Vx, y ignored (R90) -/
  | shr (x y : Reg)
  /-- `8xy7` SUBN Vx, Vy (R89) -/
  | subn (x y : Reg)
  /-- `8xyE` SHL Vx, y ignored (R91) -/
  | shl (x y : Reg)
  /-- `9xy0` SNE Vx, Vy (R76) -/
  | sneReg (x y : Reg)
  /-- `Annn` LD I, nnn (R94) -/
  | ldI (nnn : BitVec 12)
  /-- `Bnnn` JP V0, nnn (R71) -/
  | jpV0 (nnn : BitVec 12)
  /-- `Cxnn` RND Vx, nn (R92) -/
  | rnd (x : Reg) (nn : Byte)
  /-- `Dxyn` DRW Vx, Vy, n (R102) -/
  | drw (x y : Reg) (n : BitVec 4)
  /-- `Ex9E` SKP Vx (R106) -/
  | skp (x : Reg)
  /-- `ExA1` SKNP Vx (R107) -/
  | sknp (x : Reg)
  /-- `Fx07` LD Vx, DT (R112) -/
  | ldVxDt (x : Reg)
  /-- `Fx0A` LD Vx, K (R108) -/
  | ldVxK (x : Reg)
  /-- `Fx15` LD DT, Vx (R113) -/
  | ldDtVx (x : Reg)
  /-- `Fx18` LD ST, Vx (R114) -/
  | ldStVx (x : Reg)
  /-- `Fx1E` ADD I, Vx (R95) -/
  | addIVx (x : Reg)
  /-- `Fx29` LD F, Vx (R96) -/
  | ldFVx (x : Reg)
  /-- `Fx33` LD B, Vx (R97) -/
  | ldBVx (x : Reg)
  /-- `Fx55` LD [I], Vx (R98) -/
  | ldMemVx (x : Reg)
  /-- `Fx65` LD Vx, [I] (R99) -/
  | ldVxMem (x : Reg)
  deriving DecidableEq, Repr

/-- The spec mnemonic of an instruction (R54). -/
def Instr.mnemonic : Instr → String
  | .cls => "CLS"
  | .ret => "RET"
  | .jp _ => "JP"
  | .call _ => "CALL"
  | .seImm _ _ => "SE_IMM"
  | .sneImm _ _ => "SNE_IMM"
  | .seReg _ _ => "SE_REG"
  | .ldImm _ _ => "LD_IMM"
  | .addImm _ _ => "ADD_IMM"
  | .ldReg _ _ => "LD_REG"
  | .orReg _ _ => "OR"
  | .andReg _ _ => "AND"
  | .xorReg _ _ => "XOR"
  | .addReg _ _ => "ADD_REG"
  | .sub _ _ => "SUB"
  | .shr _ _ => "SHR"
  | .subn _ _ => "SUBN"
  | .shl _ _ => "SHL"
  | .sneReg _ _ => "SNE_REG"
  | .ldI _ => "LD_I"
  | .jpV0 _ => "JP_V0"
  | .rnd _ _ => "RND"
  | .drw _ _ _ => "DRW"
  | .skp _ => "SKP"
  | .sknp _ => "SKNP"
  | .ldVxDt _ => "LD_VX_DT"
  | .ldVxK _ => "LD_VX_K"
  | .ldDtVx _ => "LD_DT_VX"
  | .ldStVx _ => "LD_ST_VX"
  | .addIVx _ => "ADD_I_VX"
  | .ldFVx _ => "LD_F_VX"
  | .ldBVx _ => "LD_B_VX"
  | .ldMemVx _ => "LD_MEM_VX"
  | .ldVxMem _ => "LD_VX_MEM"

/-- One row of the opcode map: the word op is selected when `op &&& mask = pattern` (R54). -/
structure OpRow where
  mnemonic : String
  mask : Word
  pattern : Word
  deriving DecidableEq, Repr

/-- Why a byte sequence decodes to no instruction. -/
inductive DecodeError where
  /-- fewer than two bytes: a decoder always consumes exactly two (R53) -/
  | truncated
  /-- a word no row of the opcode map matches (R57) -/
  | unimplemented (op : Word)
  deriving DecidableEq, Repr

/-- The host operations that can change the block (R27). The two observations, `get_display` and the
sound-timer read, change nothing (R32, R33) and are functions of the state in Machine/HostOps.lean. -/
inductive HostOp where
  /-- `new()` (R130) -/
  | new
  /-- `load(bytes)` (R29) -/
  | load (bytes : List Byte)
  /-- `cycle()` (R30) -/
  | cycle
  /-- `set_key(index, pressed)` (R31) -/
  | setKey (index : Nat) (pressed : Bool)
  deriving DecidableEq, Repr

end Sys2Proof
end

