-- ==== Sys2Proof/WellFormed.lean ====
section
/-! DEFINITION. Which host operations keep the host's duties (10_state.md R29, R31). Instructions need no check of
their own: every operand field has its width in its type, as a decoded nibble, byte or address is in range by
construction (30_encoding.md R52), so every term of Instr is well-formed. -/

namespace Sys2Proof

/-- A program `load` accepts: at most 3584 bytes (R29). -/
def programFits (bytes : List Byte) : Bool := decide (bytes.length ≤ Config.progMax)

/-- A key index `set_key` accepts: 0..15 (R31). -/
def keyIndexOk (index : Nat) : Bool := decide (index < 16)

/-- The host operations the block carries out; the others return an error and change nothing (R29, R31). -/
def HostOp.wellFormed : HostOp → Bool
  | .new => true
  | .load bytes => programFits bytes
  | .cycle => true
  | .setKey index _ => keyIndexOk index

end Sys2Proof
end

