-- ==== Sys2Proof/Machine/Flags.lean ====
section
/-! DEFINITION. Every flag computation of the spec: the values written to VF (10_state.md R14; 42_alu.md R78, R79; 44_display.md R102). -/

namespace Sys2Proof.Machine

/-- One bit widened to 8: every flag value written is 0 or 1 (R14). -/
def flagByte (b : Bool) : Byte := if b then 1 else 0

/-- ADD: the ninth bit of the widened sum (R87). -/
def carryFlag (a b : Byte) : Byte := flagByte (decide (a.toNat + b.toNat > 255))

/-- SUB: 1 if a > b, so 0 where the operands are equal (R79, R88). -/
def subFlag (a b : Byte) : Byte := flagByte (decide (a.toNat > b.toNat))

/-- SUBN: 1 if b > a (R89). -/
def subnFlag (a b : Byte) : Byte := flagByte (decide (b.toNat > a.toNat))

/-- SHR: the bit shifted out, bit 0 (R90). -/
def shrFlag (a : Byte) : Byte := flagByte (a.getLsbD 0)

/-- SHL: the bit shifted out, bit 7 (R91). -/
def shlFlag (a : Byte) : Byte := flagByte (a.getLsbD 7)

/-- `Dxyn`: 1 if any sprite bit landed on a cell that was on (R102). -/
def collisionFlag (hit : Bool) : Byte := flagByte hit

end Sys2Proof.Machine
end

