-- ==== Sys2Proof/Machine/Memory.lean ====
section
/-! DEFINITION. The memory: 4096 bytes as a canonical list of (address, byte) pairs (20_memory.md R35 to R38, R42, R46),
for any value of the parameter FONT (00_scope.md R7). -/

namespace Sys2Proof.Machine

/-- A value of the parameter `FONT` (R7): 80 bytes, 16 glyphs of 5, top row first (R38). -/
abbrev Font := Vector Byte Config.fontSize

/-- The default table of R38, glyphs 0 to 7. -/
def fontLow : List Byte :=
  [0xF0, 0x90, 0x90, 0x90, 0xF0,  0x20, 0x60, 0x20, 0x20, 0x70,
   0xF0, 0x10, 0xF0, 0x80, 0xF0,  0xF0, 0x10, 0xF0, 0x10, 0xF0,
   0x90, 0x90, 0xF0, 0x10, 0x10,  0xF0, 0x80, 0xF0, 0x10, 0xF0,
   0xF0, 0x80, 0xF0, 0x90, 0xF0,  0xF0, 0x10, 0x20, 0x40, 0x40]

/-- The default table of R38, glyphs 8 to F. -/
def fontHigh : List Byte :=
  [0xF0, 0x90, 0xF0, 0x90, 0xF0,  0xF0, 0x90, 0xF0, 0x10, 0xF0,
   0xF0, 0x90, 0xF0, 0x90, 0x90,  0xE0, 0x90, 0xE0, 0x90, 0xE0,
   0xF0, 0x80, 0x80, 0x80, 0xF0,  0xE0, 0x90, 0x90, 0x90, 0xE0,
   0xF0, 0x80, 0xF0, 0x80, 0xF0,  0xF0, 0x80, 0xF0, 0x80, 0x80]

/-- The default value of the parameter `FONT` (R38, D15).
PRESUMED (log entry 3): unsafe for claims about a glyph's pixels; the source does not list the bytes. -/
def defaultFont : Font := ⟨(fontLow ++ fontHigh).toArray, rfl⟩

/-- What an unlisted address reads as: the contents `new()` gives it, FONT at 0x050 and 0 elsewhere (R36). -/
def unlisted (font : Font) (a : Nat) : Byte :=
  if Config.fontBase ≤ a ∧ a < Config.fontBase + Config.fontSize then font[a - Config.fontBase]?.getD 0 else 0

/-- The memory: the cells that differ from the reset contents, by rising address. -/
abbrev Memory := List Host.Cell

/-- The canonical form: addresses strictly rising and inside the memory, no entry equal to what an unlisted address reads as. -/
abbrev Memory.wf (font : Font) (m : Memory) : Prop :=
  m.Pairwise (fun c d => c.1 < d.1) ∧ ∀ c ∈ m, c.1 < Config.memSize ∧ c.2 ≠ unlisted font c.1

/-- `MemRead(a, 1)` (R9, R43). -/
def Memory.read (font : Font) : Memory → Nat → Byte
  | [], a => unlisted font a
  | c :: m, a => if c.1 = a then c.2 else Memory.read font m a

/-- The memory without a cell for address a. -/
def Memory.erase (m : Memory) (a : Nat) : Memory := m.filter fun c => c.1 != a

/-- The cell (a, v) put in its place by rising address. -/
def Memory.insert (a : Nat) (v : Byte) : Memory → Memory
  | [] => [(a, v)]
  | c :: m => if a < c.1 then (a, v) :: c :: m else c :: Memory.insert a v m

/-- `MemWrite(a, 1, v)` (R9): keeps the canonical form, so a byte equal to the unlisted contents is listed no more. -/
def Memory.write (font : Font) (m : Memory) (a : Nat) (v : Byte) : Memory :=
  if v = unlisted font a then m.erase a else (m.erase a).insert a v

/-- The n bytes from a, in ascending address order (R42). -/
def Memory.readBytes (font : Font) (m : Memory) (a : Nat) : Nat → List Byte
  | 0 => []
  | n + 1 => m.read font a :: Memory.readBytes font m (a + 1) n

/-- Write bytes from a on, in ascending address order (R42). -/
def Memory.writeBytes (font : Font) (m : Memory) (a : Nat) : List Byte → Memory
  | [] => m
  | b :: bs => Memory.writeBytes font (m.write font a b) (a + 1) bs

end Sys2Proof.Machine
end

