-- ==== Sys2Proof/Machine/State.lean ====
section
/-! DEFINITION. The state of the block (10_state.md R13 to R26), the reasons a step can stop, and the state after `new()` (70_reset_and_hazards.md R130). -/

namespace Sys2Proof.Machine

/-- The fault codes (60_exceptions.md R117). -/
inductive FaultCode where
  /-- 1: the fetched word matches no row of the opcode map; raised by decode -/
  | unimplementedOpcode
  /-- 2: a push with SP = 16; raised by `2nnn` -/
  | stackOverflow
  /-- 3: a pop with SP = 0; raised by `00EE` -/
  | stackUnderflow
  /-- 4: a fetch with pc > 0xFFE; raised by fetch -/
  | fetchOutOfRange
  /-- 5: a data byte address above 0xFFF; raised by `Dxyn`, `Fx33`, `Fx55`, `Fx65` -/
  | memoryOutOfRange
  /-- 6: V[x] > 15 used as a key index; raised by `Ex9E`, `ExA1` -/
  | keyIndexOutOfRange
  deriving DecidableEq, Repr

/-- The fault record (R24, R117): the code, the address of the instruction, the opcode word (absent for code 4), the detail. -/
structure FaultRecord where
  code : FaultCode
  addr : Word
  opcode : Option Word
  detail : Word
  deriving DecidableEq, Repr

/-- The run state (R24). -/
inductive RunState where
  | running
  | halted (f : FaultRecord)
  deriving DecidableEq, Repr

/-- Why a step stops with a fault. -/
inductive Fault where
  /-- `cycle()` called on a block Halted with record f: it changes nothing and returns the same fault (R30, R119).
  Raised by the step on a Halted block only; the faulting cycle itself is a next state, the Halted block
  (R118). DESIGN CHOICE (log entry 2): safe, a Halted block never runs again. -/
  | halted (f : FaultRecord)
  deriving DecidableEq, Repr

/-- Why an operation is turned away with no change of state. -/
inductive Refusal where
  /-- an instruction with no meaning in exec yet, by its mnemonic; raised by exec's refused arms only; safe -/
  | notModelled (mnemonic : String)
  /-- `LOAD_OVERFLOW`: `load` of more than 3584 bytes (R29); raised by the host operation `load` only; safe -/
  | loadOverflow
  /-- `KEY_INDEX_INVALID`: `set_key` with an index above 15 (R31); raised by the host operation `set_key` only; safe -/
  | keyIndexInvalid
  deriving DecidableEq, Repr

/-- The display: 32 rows of 64 cells, origin top-left (R23). -/
abbrev Display := Vector (Vector Bool 64) 32

/-- Everything the spec gives the block (R13 to R25), the parameter FONT the block was made with, and the model's own draw
counter. -/
structure State where
  /-- V[0]..V[15]; V[15] is VF (R13, R14) -/
  v : Vector Byte 16
  /-- the program counter (R15) -/
  pc : Word
  /-- the index register I (R17) -/
  i : Word
  /-- the call stack (R18) -/
  stack : Vector Word 16
  /-- SP, the next free slot index, 0..16 (R19) -/
  sp : Byte
  /-- DT, the delay timer (R20) -/
  dt : Byte
  /-- ST, the sound timer (R21) -/
  st : Byte
  /-- the keypad, true means pressed (R22) -/
  key : Vector Bool 16
  /-- the framebuffer (R23) -/
  fb : Display
  /-- the memory (R35) -/
  mem : Memory
  /-- Running or Halted (R24) -/
  run : RunState
  /-- the model's own: how many draws of RAND were taken (R7, R92). DESIGN CHOICE (log entry 4) -/
  draws : Nat
  /-- the parameter FONT (R7, R38), no state of the block: no operation changes it. DESIGN CHOICE (log entry 18): safe, a
  statement over states speaks of every FONT -/
  font : Font
  deriving DecidableEq, Repr

/-- The display with every cell false. -/
def Display.blank : Display := Vector.replicate 32 (Vector.replicate 64 false)

/-- The state after `new()` (R130) for a FONT: every field as its rule gives it; the memory lists nothing, so it reads as
`unlisted`. -/
def State.resetWith (font : Font) : State where
  v := Vector.replicate 16 0
  pc := BitVec.ofNat 16 Config.progStart
  i := 0
  stack := Vector.replicate 16 0
  sp := 0
  dt := 0
  st := 0
  key := Vector.replicate 16 false
  fb := Display.blank
  mem := []
  run := .running
  draws := 0
  font := font

/-- The state after `new()` (R130), with FONT at its default (R38). -/
def State.reset : State := State.resetWith defaultFont

end Sys2Proof.Machine
end

