-- ==== Sys2Proof/Machine/Ops.lean ====
section
/-! DEFINITION. The named operations over registers, memory and the stack that the meanings share, and taking a fault
(00_scope.md R9; 40_cycle.md R61, R62; 41_control_flow.md R67; 43_index_memory.md R93; 60_exceptions.md R118). -/

namespace Sys2Proof.Machine

/-- How every operation of the block answers. -/
abbrev Answer := Host.Outcome State Fault Refusal

/-! ## General registers (R13) -/

/-- `V[x]`. -/
def State.getV (s : State) (x : Reg) : Byte := s.v[x.val]

/-- `V[x] <- b`. -/
def State.setV (s : State) (x : Reg) (b : Byte) : State := { s with v := s.v.set x.val b }

/-! ## The other registers -/

/-- `pc <- t`. -/
def State.setPc (s : State) (t : Word) : State := { s with pc := t }

/-- `I <- t`. -/
def State.setI (s : State) (t : Word) : State := { s with i := t }

/-- The advance every cycle makes after its fetch (R61). -/
def State.advance (s : State) : State := s.setPc (s.pc + 2)

/-- `Skip()` (R62). R62 counts eight conditional-skip instructions, the opcode map and the skips' own rules six (R54; R73 to R76,
R106, R107); the six use it here. DEDUCED (log entry 20): safe. -/
def State.skip (s : State) : State := s.setPc (s.pc + 2)

/-- `if c: Skip()`. -/
def State.skipIf (s : State) (c : Bool) : State := if c then s.skip else s

/-! ## Taking a fault (R118, R122) -/

/-- `run <- Halted(code, a, op, detail)` with pc = a. The one way into the Halted state. Every check of a cycle comes
before its first write (R65), so putting pc back to a restores the whole snapshot of the cycle's start. -/
def State.takeFault (s : State) (code : FaultCode) (a : Word) (op : Option Word) (detail : Word) : State :=
  { s with pc := a, run := .halted ⟨code, a, op, detail⟩ }

/-- `raise Fault(code, detail)` by an executing instruction whose word is op: pc is advanced already (R61), so the
instruction's own address is pc - 2. DEDUCED (log entry 11): safe. -/
def State.raiseFault (s : State) (code : FaultCode) (op : Word) (detail : Word) : State :=
  s.takeFault code (s.pc - 2) (some op) detail

/-! ## Call stack (R67) -/

/-- `Push(v)`, none where the stack is full. On SP above 16, which R19 rules out, it answers none as well.
DESIGN CHOICE (log entry 6): safe. -/
def State.push (s : State) (a : Word) : Option State :=
  if h : s.sp.toNat < 16 then some { s with stack := s.stack.set s.sp.toNat a, sp := s.sp + 1 } else none

/-- `Pop()`, none where the stack is empty; the slot keeps its value (R18). On SP above 16, which R19 rules out, it
answers none as well. DESIGN CHOICE (log entry 6): safe. -/
def State.pop (s : State) : Option (Word × State) :=
  if h : 0 < s.sp.toNat ∧ s.sp.toNat ≤ 16 then
    some (s.stack[s.sp.toNat - 1]'(by omega), { s with sp := s.sp - 1 })
  else none

/-! ## Memory through I (R93) -/

/-- `CheckRange(count)` (R93): the first address above 0xFFF among the count bytes from I, or none. -/
def State.rangeFault (s : State) (count : Nat) : Option Word :=
  if 0 < count ∧ s.i.toNat + count - 1 > 0xFFF then some (if s.i.toNat < 0x1000 then 0x1000 else s.i) else none

/-- The byte at address a. -/
def State.readByte (s : State) (a : Nat) : Byte := s.mem.read s.font a

/-- The count bytes from I on (R42). -/
def State.loadBytes (s : State) (count : Nat) : List Byte := s.mem.readBytes s.font s.i.toNat count

/-- Store bytes from I on (R42). -/
def State.storeBytes (s : State) (bs : List Byte) : State := { s with mem := s.mem.writeBytes s.font s.i.toNat bs }

/-! ## Timers (R110) -/

/-- A timer's tick: down by one, and 0 stays 0. -/
def tickDown (t : Byte) : Byte := if t.toNat > 0 then t - 1 else t

/-- `Tick()`. -/
def State.tick (s : State) : State := { s with dt := tickDown s.dt, st := tickDown s.st }

/-! ## Fetch (R40) and the program's place in memory -/

/-- `Fetch(pc)`: the opcode, or none where pc > 0xFFE (R44). -/
def State.fetch (s : State) : Option Word :=
  if s.pc.toNat > Config.lastFetch then none
  else some (s.readByte s.pc.toNat ++ s.readByte (s.pc.toNat + 1))

/-- The state from which the next cycle fetches the word op: op stored at pc, high byte first (R39). A fetch needs a
Running block and pc at most 0xFFE; where s has neither, it is given them (pc at the entry point).
DESIGN CHOICE (log entry 9): safe, no cycle uses it. -/
def State.placeWord (s : State) (op : Word) : State :=
  let pc := if s.pc.toNat > Config.lastFetch then BitVec.ofNat 16 Config.progStart else s.pc
  { s with pc := pc, run := .running, mem := s.mem.writeBytes s.font pc.toNat [op.extractLsb' 8 8, op.extractLsb' 0 8] }

end Sys2Proof.Machine
end

