-- ==== Sys2Proof/Machine/Operands.lean ====
section
/-! DEFINITION. Every operand form of the spec: registers by field, immediates, the key a register names, the glyph
address, the decimal digits, the block V[0]..V[x], the sprite's origin and rows (30_encoding.md R51, R52). -/

namespace Sys2Proof.Machine

/-- The jump target of `Bnnn`: `zext_16(V[0]) + zext_16(nnn)`, at most 0x10FE (R71). -/
def State.offsetTarget (s : State) (nnn : BitVec 12) : Word := (s.getV 0).toWord + addrWord nnn

/-- The glyph address of `Fx29`: `0x050 + 5 * zext_16(V[x])` (R96). -/
def glyphAddr (b : Byte) : Word := 0x050 + 5 * b.toWord

/-- The three decimal digits of `Fx33`: hundreds, tens, ones (R97). -/
def decimalDigits (b : Byte) : List Byte :=
  [BitVec.ofNat 8 (b.toNat / 100), BitVec.ofNat 8 (b.toNat / 10 % 10), BitVec.ofNat 8 (b.toNat % 10)]

/-- V[0]..V[x], the x + 1 registers `Fx55` stores (R98). -/
def State.regsUpTo (s : State) (x : Reg) : List Byte := s.v.toList.take (x.val + 1)

/-- V after `Fx65`: V[k] is MemRead(I + k) for k in 0..x, the higher registers as before (R99). -/
def State.regsLoaded (s : State) (x : Reg) : Vector Byte 16 :=
  Vector.ofFn fun k : Fin 16 => if k.val ≤ x.val then s.readByte (s.i.toNat + k.val) else s.getV k

/-- `key[b]`, or none where b > 15, which `CheckKey` faults on (R105). -/
def State.keyAt (s : State) (b : Byte) : Option Bool :=
  if h : b.toNat < 16 then some s.key[b.toNat] else none

/-- The ascending scan of `Fx0A` (R108): the index of the first pressed key, the list's first key being index k. -/
def firstPressed : List Bool → Nat → Option Nat
  | [], _ => none
  | pressed :: keys, k => if pressed then some k else firstPressed keys (k + 1)

/-- The lowest pressed key, or none (R108). -/
def State.lowestKey (s : State) : Option Nat := firstPressed s.key.toList 0

/-- The origin column of `Dxyn`: V[x] mod 64 (R102). -/
def State.originCol (s : State) (x : Reg) : Nat := (s.getV x).toNat % 64

/-- The origin row of `Dxyn`: V[y] mod 32 (R102). -/
def State.originRow (s : State) (y : Reg) : Nat := (s.getV y).toNat % 32

end Sys2Proof.Machine
end

