-- ==== Sys2Proof/Machine/Alu.lean ====
section
/-! DEFINITION. Register loads, arithmetic, logic, shifts and random (42_alu.md R77 to R92). -/

namespace Sys2Proof.Machine

/-- The operations of chip8_alu_flags (R78). -/
inductive AluOp where
  | mov | or | and | xor | add | sub | shr | subn | shl | addi
  deriving DecidableEq, Repr

/-- `ALU(op, a, b)` (R78): the result and the flag, none where the operation has no flag. -/
def alu (op : AluOp) (a b : Byte) : Byte × Option Byte :=
  match op with
  | .mov => (b, none)
  | .or => (a ||| b, none)
  | .and => (a &&& b, none)
  | .xor => (a ^^^ b, none)
  | .add => (a + b, some (carryFlag a b))
  | .sub => (a - b, some (subFlag a b))
  | .shr => (a >>> 1, some (shrFlag a))
  | .subn => (b - a, some (subnFlag a b))
  | .shl => (a <<< 1, some (shlFlag a))
  | .addi => (a + b, none)

/-- The flag write: VF where the operation has a flag, nothing else (R77, R80). -/
def State.writeFlag (s : State) (flag : Option Byte) : State :=
  match flag with
  | some f => s.setV vf f
  | none => s

/-- Read operands, compute, write VF if the operation has a flag, write V[x] last (R77). -/
def State.aluStep (s : State) (op : AluOp) (x : Reg) (b : Byte) : State :=
  let r := alu op (s.getV x) b
  (s.writeFlag r.2).setV x r.1

/-- `6xnn` LD Vx, nn (R81). -/
def execLdImm (x : Reg) (nn : Byte) (s : State) : Answer := .next (s.aluStep .mov x nn)

/-- `7xnn` ADD Vx, nn (R82). -/
def execAddImm (x : Reg) (nn : Byte) (s : State) : Answer := .next (s.aluStep .addi x nn)

/-- `8xy0` LD Vx, Vy (R83). -/
def execLdReg (x y : Reg) (s : State) : Answer := .next (s.aluStep .mov x (s.getV y))

/-- `8xy1` OR Vx, Vy (R84). -/
def execOrReg (x y : Reg) (s : State) : Answer := .next (s.aluStep .or x (s.getV y))

/-- `8xy2` AND Vx, Vy (R85). -/
def execAndReg (x y : Reg) (s : State) : Answer := .next (s.aluStep .and x (s.getV y))

/-- `8xy3` XOR Vx, Vy (R86). -/
def execXorReg (x y : Reg) (s : State) : Answer := .next (s.aluStep .xor x (s.getV y))

/-- `8xy4` ADD Vx, Vy (R87). -/
def execAddReg (x y : Reg) (s : State) : Answer := .next (s.aluStep .add x (s.getV y))

/-- `8xy5` SUB Vx, Vy (R88). -/
def execSub (x y : Reg) (s : State) : Answer := .next (s.aluStep .sub x (s.getV y))

/-- `8xy6` SHR Vx (R90): y is ignored (R56). -/
def execShr (x _y : Reg) (s : State) : Answer := .next (s.aluStep .shr x 0)

/-- `8xy7` SUBN Vx, Vy (R89). -/
def execSubn (x y : Reg) (s : State) : Answer := .next (s.aluStep .subn x (s.getV y))

/-- `8xyE` SHL Vx (R91): y is ignored (R56). -/
def execShl (x _y : Reg) (s : State) : Answer := .next (s.aluStep .shl x 0)

/-- `draw RAND` (R7, R9): the fresh free byte, and the state with the draw counted. DESIGN CHOICE (log entry 4). -/
def State.drawRand (s : State) : Byte × State := (Config.randomByte s.draws, { s with draws := s.draws + 1 })

/-- `Cxnn` RND Vx, nn (R92). -/
def execRnd (x : Reg) (nn : Byte) (s : State) : Answer := .next (s.drawRand.2.setV x (s.drawRand.1 &&& nn))

end Sys2Proof.Machine
end

