-- ==== Sys2Proof/Machine/ControlFlow.lean ====
section
/-! DEFINITION. Jumps, call, return and the register and immediate skips (41_control_flow.md R67 to R76). In every
meaning pc already holds the instruction's own address plus 2 (40_cycle.md R61). -/

namespace Sys2Proof.Machine

/-- `00EE` RET (R68). -/
def execRet (s : State) : Answer :=
  match s.pop with
  | some (a, t) => .next (t.setPc a)
  | none => .next (s.raiseFault .stackUnderflow (encode .ret) 0)

/-- `1nnn` JP nnn (R69). -/
def execJp (nnn : BitVec 12) (s : State) : Answer := .next (s.setPc (addrWord nnn))

/-- `2nnn` CALL nnn (R70): pushes the advanced pc. -/
def execCall (nnn : BitVec 12) (s : State) : Answer :=
  match s.push s.pc with
  | some t => .next (t.setPc (addrWord nnn))
  | none => .next (s.raiseFault .stackOverflow (encode (.call nnn)) 0)

/-- `Bnnn` JP V0, nnn (R71). -/
def execJpV0 (nnn : BitVec 12) (s : State) : Answer := .next (s.setPc (s.offsetTarget nnn))

/-- `3xnn` SE Vx, nn (R73). -/
def execSeImm (x : Reg) (nn : Byte) (s : State) : Answer := .next (s.skipIf (s.getV x == nn))

/-- `4xnn` SNE Vx, nn (R74). -/
def execSneImm (x : Reg) (nn : Byte) (s : State) : Answer := .next (s.skipIf (s.getV x != nn))

/-- `5xy0` SE Vx, Vy (R75). -/
def execSeReg (x y : Reg) (s : State) : Answer := .next (s.skipIf (s.getV x == s.getV y))

/-- `9xy0` SNE Vx, Vy (R76). -/
def execSneReg (x y : Reg) (s : State) : Answer := .next (s.skipIf (s.getV x != s.getV y))

end Sys2Proof.Machine
end

