-- ==== Sys2Proof/Machine/Display.lean ====
section
/-! DEFINITION. Display clear and sprite draw (44_display.md R100 to R103). -/

namespace Sys2Proof.Machine

/-- `fb[r][c]` (R23). -/
def Display.cell (fb : Display) (r : Fin 32) (c : Fin 64) : Bool := fb[r.val][c.val]

/-- `fb[r][c] <- not fb[r][c]`. -/
def Display.flip (fb : Display) (r : Fin 32) (c : Fin 64) : Display :=
  fb.set r.val (fb[r.val].set c.val (!fb[r.val][c.val]))

/-- Row `r mod 32` (R102). -/
def wrapRow (r : Nat) : Fin 32 := ⟨r % 32, Nat.mod_lt _ (by decide)⟩

/-- Column `c mod 64` (R102). -/
def wrapCol (c : Nat) : Fin 64 := ⟨c % 64, Nat.mod_lt _ (by decide)⟩

/-- One 1 bit of the sprite at row r, column c: collision if the cell is on, then the cell is toggled (R102). -/
def plot (r c : Nat) (k : Display × Bool) : Display × Bool :=
  (k.1.flip (wrapRow r) (wrapCol c), k.2 || k.1.cell (wrapRow r) (wrapCol c))

/-- One sprite row at row r from column x0 on: c = 0 is bit 7, the leftmost pixel (R102). -/
def drawRow (x0 r : Nat) (row : Byte) (k : Display × Bool) : Display × Bool :=
  (List.range 8).foldl (fun k c => if row.getLsbD (7 - c) then plot r (x0 + c) k else k) k

/-- The sprite's rows, top row first, from row r on (R102). -/
def drawRows (x0 : Nat) : Nat → List Byte → Display × Bool → Display × Bool
  | _, [], k => k
  | r, row :: rows, k => drawRows x0 (r + 1) rows (drawRow x0 r row k)

/-- `Draw(x0, y0, rows)` (R100): the display with the sprite XORed in, and the collision bit. -/
def draw (x0 y0 : Nat) (rows : List Byte) (fb : Display) : Display × Bool := drawRows x0 y0 rows (fb, false)

/-- `00E0` CLS (R101): `Clear()`. -/
def execCls (s : State) : Answer := .next { s with fb := Display.blank }

/-- `Dxyn` DRW Vx, Vy, n (R102): the origin is read before VF is written. Where R103 (1) gives the second of two draws another
VF than the pseudocode of R102 and R103 (2) do, this is R102. DEDUCED (log entry 17): unsafe for a claim that leans on R103 (1). -/
def execDrw (x y : Reg) (n : BitVec 4) (s : State) : Answer :=
  match s.rangeFault n.toNat with
  | some a => .next (s.raiseFault .memoryOutOfRange (encode (.drw x y n)) a)
  | none =>
    let k := draw (s.originCol x) (s.originRow y) (s.loadBytes n.toNat) s.fb
    .next (State.setV { s with fb := k.1 } vf (collisionFlag k.2))

end Sys2Proof.Machine
end

