-- ==== Sys2Proof/Machine/IndexMemory.lean ====
section
/-! DEFINITION. The index register and the memory transfers (43_index_memory.md R93 to R99). -/

namespace Sys2Proof.Machine

/-- `Annn` LD I, nnn (R94). -/
def execLdI (nnn : BitVec 12) (s : State) : Answer := .next (s.setI (addrWord nnn))

/-- `Fx1E` ADD I, Vx (R95): modulo 65536, VF unchanged. -/
def execAddIVx (x : Reg) (s : State) : Answer := .next (s.setI (s.i + (s.getV x).toWord))

/-- `Fx29` LD F, Vx (R96): the whole V[x], not its low nibble. -/
def execLdFVx (x : Reg) (s : State) : Answer := .next (s.setI (glyphAddr (s.getV x)))

/-- `Fx33` LD B, Vx (R97). -/
def execLdBVx (x : Reg) (s : State) : Answer :=
  match s.rangeFault 3 with
  | some a => .next (s.raiseFault .memoryOutOfRange (encode (.ldBVx x)) a)
  | none => .next (s.storeBytes (decimalDigits (s.getV x)))

/-- `Fx55` LD [I], Vx (R98): I unchanged. -/
def execLdMemVx (x : Reg) (s : State) : Answer :=
  match s.rangeFault (x.val + 1) with
  | some a => .next (s.raiseFault .memoryOutOfRange (encode (.ldMemVx x)) a)
  | none => .next (s.storeBytes (s.regsUpTo x))

/-- `Fx65` LD Vx, [I] (R99): I unchanged. -/
def execLdVxMem (x : Reg) (s : State) : Answer :=
  match s.rangeFault (x.val + 1) with
  | some a => .next (s.raiseFault .memoryOutOfRange (encode (.ldVxMem x)) a)
  | none => .next { s with v := s.regsLoaded x }

end Sys2Proof.Machine
end

