-- ==== Sys2Proof/Machine/Keypad.lean ====
section
/-! DEFINITION. The keypad instructions (45_keypad.md R104 to R108). -/

namespace Sys2Proof.Machine

/-- `Ex9E` SKP Vx (R105, R106). -/
def execSkp (x : Reg) (s : State) : Answer :=
  match s.keyAt (s.getV x) with
  | some pressed => .next (s.skipIf pressed)
  | none => .next (s.raiseFault .keyIndexOutOfRange (encode (.skp x)) (s.getV x).toWord)

/-- `ExA1` SKNP Vx (R105, R107). -/
def execSknp (x : Reg) (s : State) : Answer :=
  match s.keyAt (s.getV x) with
  | some pressed => .next (s.skipIf (!pressed))
  | none => .next (s.raiseFault .keyIndexOutOfRange (encode (.sknp x)) (s.getV x).toWord)

/-- `Fx0A` LD Vx, K (R108): with no key pressed, pc goes back to this instruction. -/
def execLdVxK (x : Reg) (s : State) : Answer :=
  match s.lowestKey with
  | some k => .next (s.setV x (BitVec.ofNat 8 k))
  | none => .next (s.setPc (s.pc - 2))

end Sys2Proof.Machine
end

