-- ==== Sys2Proof/Machine/Timers.lean ====
section
/-! DEFINITION. The timer instructions (46_timers.md R112 to R114); the tick of the same cycle follows them (R110). -/

namespace Sys2Proof.Machine

/-- `Fx07` LD Vx, DT (R112). -/
def execLdVxDt (x : Reg) (s : State) : Answer := .next (s.setV x s.dt)

/-- `Fx15` LD DT, Vx (R113). -/
def execLdDtVx (x : Reg) (s : State) : Answer := .next { s with dt := s.getV x }

/-- `Fx18` LD ST, Vx (R114). -/
def execLdStVx (x : Reg) (s : State) : Answer := .next { s with st := s.getV x }

end Sys2Proof.Machine
end

