-- ==== Sys2Proof/Machine/Cycle.lean ====
section
/-! DEFINITION. The cycle: fetch, advance, decode, execute, tick (40_cycle.md R60 to R65; 60_exceptions.md R118 to R120). -/

namespace Sys2Proof.Machine

/-- The end of a cycle: the tick if it completed; a cycle that faulted, and so left the block Halted, does not tick (R110, R118). -/
def State.finish (t : State) : State :=
  match t.run with
  | .running => t.tick
  | .halted _ => t

/-- An instruction's answer with the end of the cycle applied to its next state. -/
def finishAnswer (r : Answer) : Answer :=
  match r with
  | .next t => .next t.finish
  | .fault f => .fault f
  | .refused f => .refused f

/-- The cycle from the decoded word on: op was fetched at s's pc (R60). -/
def runWord (s : State) (op : Word) : Answer :=
  match decodeWord op with
  | some i => finishAnswer (exec i s.advance)
  | none => .next (s.takeFault .unimplementedOpcode s.pc (some op) 0)

/-- `cycle()` (R30, R60). A Halted block changes nothing and answers the same fault again (R119). -/
def cycle (s : State) : Answer :=
  match s.run with
  | .halted f => .fault (.halted f)
  | .running =>
    match s.fetch with
    | some op => runWord s op
    | none => .next (s.takeFault .fetchOutOfRange s.pc none s.pc)

end Sys2Proof.Machine
end

