-- ==== Sys2Proof/Machine/Step.lean ====
section
/-! DEFINITION. The step of the machine is one `cycle()` (40_cycle.md R60, R63), and the state whose next step runs a given word. -/

namespace Sys2Proof.Machine

/-- One step: one `cycle()`. -/
def step (s : State) : Host.Outcome State Fault Refusal := cycle s

/-- s with the table's word stored where the next step fetches; it stands for the load of a program (log entry 8). -/
def State.withFetchWord (s : State) (nbits w : Nat) : State := s.placeWord (tableWord nbits w)

end Sys2Proof.Machine
end

