-- ==== Sys2Proof/Machine/HostOps.lean ====
section
/-! DEFINITION. The host operations, each one indivisible transaction between cycles (10_state.md R27 to R33; 70_reset_and_hazards.md R130). -/

namespace Sys2Proof.Machine

/-- `new()` (R130), the only reset (R119), with the block's FONT. The draw counter, which is no state of the block, runs on, so that later
draws stay fresh. DESIGN CHOICE (log entry 5): safe. -/
def State.renew (s : State) : State := { State.resetWith s.font with draws := s.draws }

/-- `load(bytes)` (R29), in either run state. `LOAD_OVERFLOW` is a refusal (log entry 12). -/
def State.hostLoad (s : State) (bytes : List Byte) : Answer :=
  if programFits bytes then .next { s with mem := s.mem.writeBytes s.font Config.progStart bytes }
  else .refused .loadOverflow

/-- `set_key(index, pressed)` (R31), in either run state. `KEY_INDEX_INVALID` is a refusal (log entry 12). -/
def State.hostSetKey (s : State) (index : Nat) (pressed : Bool) : Answer :=
  if h : index < 16 then .next { s with key := s.key.set index pressed } else .refused .keyIndexInvalid

/-- `get_display()` (R32): 2048 booleans, element r*64 + c is fb[r][c]. -/
def State.getDisplay (s : State) : List Bool := s.fb.toList.flatMap Vector.toList

/-- The sound-timer read (R33). -/
def State.soundTimer (s : State) : Byte := s.st

/-- `sound_active` (R33, R115). -/
def State.soundActive (s : State) : Bool := s.st != 0

/-- The result of the `cycle()` that left the block in state t, as the host sees it (R24, R30): none is `Ok`, some f is `Fault(f)`. -/
def State.cycleResult (t : State) : Option FaultRecord :=
  match t.run with
  | .running => none
  | .halted f => some f

/-- One host operation on the block (R27). -/
def applyOp (op : HostOp) (s : State) : Answer :=
  match op with
  | .new => .next s.renew
  | .load bytes => s.hostLoad bytes
  | .cycle => step s
  | .setKey index pressed => s.hostSetKey index pressed

/-- The state one host operation leaves, whatever it returns: an operation that returns an error, and `cycle()` on a Halted
block, change no state (R29, R31, R119). -/
def State.after (s : State) (op : HostOp) : State :=
  match applyOp op s with
  | .next t => t
  | .fault _ => s
  | .refused _ => s

/-- The state a schedule of host operations leaves, carried out one after another (R28). -/
def session (ops : List HostOp) (s : State) : State := ops.foldl State.after s

/-- What the host may do during the run of one program (R66): cycles, and key changes between them (R27, R28, R104). `new()`
begins another run and `load` changes the program (R132). DESIGN CHOICE (log entry 21): unsafe for a claim about a session
that calls either in mid-run. -/
def inRun : HostOp → Bool
  | .new => false
  | .load _ => false
  | .cycle => true
  | .setKey _ _ => true

end Sys2Proof.Machine
end

