-- ==== Sys2Proof/Safety.lean ====
section
/-! DEFINITION. What counts as a safe run, what a run reaches, the states a session can be in, and the invariant of the
block (10_state.md R16, R19, R24; 40_cycle.md R66; 41_control_flow.md R68; 60_exceptions.md R117). -/

namespace Sys2Proof.Machine

/-- No fault so far: the block is Running (R24, R119). -/
def State.Safe (s : State) : Prop := s.run = .running

/-- A run from start reaches address A: between two cycles the block is Running with pc = A (R66), the host calling
`cycle()` and setting keys between cycles as some schedule says (log entry 21). R66 leaves open whether the start state counts; here it does (the empty schedule), so a Running start
state reaches its own pc. DESIGN CHOICE (log entry 19): unsafe for a reader who takes reaching to need a cycle. -/
def Reaches (start : State) (A : Word) : Prop :=
  ∃ ops : List HostOp, (∀ o ∈ ops, inRun o = true) ∧ (session ops start).Safe ∧ (session ops start).pc = A

/-- The states a session can be in, for any FONT: after `new()`, and after any host operation the block carries out, a cycle among them (R27). -/
inductive Reachable : State → Prop where
  | reset (font : Font) : Reachable (State.resetWith font)
  | op (o : HostOp) (s t : State) : Reachable s → applyOp o s = .next t → Reachable t

/-- The invariant of the block: the memory in canonical form, SP in 0..16 (R19), pc at most 0x10FE (R16), every return
address at most 0x1000 (R68), and a fault record's address is the pc it stopped at (R118). -/
structure State.Inv (s : State) : Prop where
  mem_wf : s.mem.wf s.font
  sp_le : s.sp.toNat ≤ 16
  pc_le : s.pc.toNat ≤ 0x10FE
  stack_le : ∀ k : Fin 16, (s.stack[k.val]).toNat ≤ 0x1000
  record_addr : ∀ f, s.run = .halted f → f.addr = s.pc

end Sys2Proof.Machine
end

