-- ==== Sys2Proof/Certificates/Slice0/Obligations.lean ====
section
/-! DEFINITION. The statements for the provers, and the words they are written in. In a statement about `exec`, the
state's pc is already the instruction's own address plus 2 (40_cycle.md R61). -/

namespace Sys2Proof.Machine

/-! ## Frames -/

/-- The parts of the state. -/
inductive Part where
  | v | pc | i | stack | sp | dt | st | key | fb | mem | run | draws | font
  deriving DecidableEq, Repr

/-- A part is the same in t as in s; memory is compared through the read of one byte. -/
def Part.same (s t : State) : Part → Prop
  | .v => ∀ r, t.getV r = s.getV r
  | .pc => t.pc = s.pc
  | .i => t.i = s.i
  | .stack => ∀ k : Fin 16, t.stack[k.val] = s.stack[k.val]
  | .sp => t.sp = s.sp
  | .dt => t.dt = s.dt
  | .st => t.st = s.st
  | .key => ∀ k : Fin 16, t.key[k.val] = s.key[k.val]
  | .fb => ∀ r c, t.fb.cell r c = s.fb.cell r c
  | .mem => ∀ a, t.readByte a = s.readByte a
  | .run => t.run = s.run
  | .draws => t.draws = s.draws
  | .font => t.font = s.font

/-- Every part but the listed ones is unchanged. -/
def OnlyChanges (parts : List Part) (s t : State) : Prop := ∀ p, p ∉ parts → p.same s t

/-- Every general register but the listed ones is unchanged. -/
def RegsKeptBut (regs : List Reg) (s t : State) : Prop := ∀ r, r ∉ regs → t.getV r = s.getV r

/-- Every byte of memory outside the n bytes from a is unchanged. -/
def MemKeptOutside (a n : Nat) (s t : State) : Prop := ∀ b, ¬ (a ≤ b ∧ b < a + n) → t.readByte b = s.readByte b

/-- t is s after an executing instruction with word op raised the fault: pc back at the instruction's own address, the
block Halted with the record, nothing else changed (R118). -/
def TakesFault (code : FaultCode) (op : Word) (detail : Word) (s t : State) : Prop :=
  OnlyChanges [.pc, .run] s t ∧ t.pc = s.pc - 2 ∧ t.run = .halted ⟨code, s.pc - 2, some op, detail⟩

/-- The detail of MEMORY_OUT_OF_RANGE: the first address from I on that is above 0xFFF, max(I, 0x1000) (R93). -/
def IsFirstOutside (s : State) (detail : Word) : Prop := detail.toNat = max s.i.toNat 0x1000

/-! ## Words -/

/-- The register field of a word. -/
def nibble (x : Reg) : BitVec 4 := BitVec.ofNat 4 x.val

/-- The word op stands at pc, high byte first, and pc is in range (R39, R40). -/
def WordAtPc (s : State) (op : Word) : Prop :=
  s.pc.toNat ≤ 0xFFE ∧ s.readByte s.pc.toNat = op.extractLsb' 8 8 ∧ s.readByte (s.pc.toNat + 1) = op.extractLsb' 0 8

/-! ## Sprites (R102) -/

/-- A 1 bit of the sprite of `Dxyn` lands on cell (r, c): row j of the sprite, bit-column k, leftmost first. -/
def SpriteHits (s : State) (x y : Reg) (n : BitVec 4) (r : Fin 32) (c : Fin 64) : Prop :=
  ∃ j k : Nat, j < n.toNat ∧ k < 8 ∧ (s.readByte (s.i.toNat + j)).getLsbD (7 - k) = true ∧
    r.val = ((s.getV y).toNat % 32 + j) % 32 ∧ c.val = ((s.getV x).toNat % 64 + k) % 64

/-- Every byte of the sprite is inside the memory; with n = 0 there is none. -/
abbrev SpriteInRange (s : State) (n : BitVec 4) : Prop := n.toNat = 0 ∨ s.i.toNat + n.toNat - 1 ≤ 0xFFF

/-! ## Who writes what -/

/-- The fault an instruction can raise itself (R117, R120). -/
def ownFault : Instr → Option FaultCode
  | .call _ => some .stackOverflow
  | .ret => some .stackUnderflow
  | .drw _ _ _ => some .memoryOutOfRange
  | .ldBVx _ => some .memoryOutOfRange
  | .ldMemVx _ => some .memoryOutOfRange
  | .ldVxMem _ => some .memoryOutOfRange
  | .skp _ => some .keyIndexOutOfRange
  | .sknp _ => some .keyIndexOutOfRange
  | _ => none

/-- The instructions that write VF as a flag (R14). -/
def writesFlag : Instr → Bool
  | .addReg _ _ => true
  | .sub _ _ => true
  | .subn _ _ => true
  | .shr _ _ => true
  | .shl _ _ => true
  | .drw _ _ _ => true
  | _ => false

/-- The instructions that write VF as a destination register, x = 15 (R14). -/
def writesVfAsDestination : Instr → Bool
  | .ldImm x _ => decide (x = 15)
  | .addImm x _ => decide (x = 15)
  | .ldReg x _ => decide (x = 15)
  | .orReg x _ => decide (x = 15)
  | .andReg x _ => decide (x = 15)
  | .xorReg x _ => decide (x = 15)
  | .rnd x _ => decide (x = 15)
  | .ldVxDt x => decide (x = 15)
  | .ldVxK x => decide (x = 15)
  | .ldVxMem x => decide (x = 15)
  | _ => false

/-- The number of bytes an instruction stores from I on (R42). -/
def storedCount : Instr → Nat
  | .ldBVx _ => 3
  | .ldMemVx x => x.val + 1
  | _ => 0

/-- Every element of t is at its reset value (R130): 0x200 in pc, the block's FONT at 0x050, everything else 0, false or
Running. -/
def IsFresh (t : State) : Prop :=
  t.pc = 0x200 ∧ t.i = 0 ∧ t.sp = 0 ∧ t.dt = 0 ∧ t.st = 0 ∧ t.run = .running ∧ (∀ r, t.getV r = 0) ∧
  (∀ k : Fin 16, t.stack[k.val] = 0) ∧ (∀ k : Fin 16, t.key[k.val] = false) ∧ (∀ r c, t.fb.cell r c = false) ∧
  (∀ k : Fin 80, t.readByte (0x050 + k.val) = t.font[k.val]) ∧
  (∀ a, a < 0x1000 → ¬ (0x050 ≤ a ∧ a ≤ 0x09F) → t.readByte a = 0)

/-- s runs the instruction i next: Running, with a word at pc that decodes to i. -/
def RunsNext (s : State) (i : Instr) : Prop := s.run = .running ∧ ∃ op, WordAtPc s op ∧ decodeWord op = some i

end Sys2Proof.Machine

open Sys2Proof Sys2Proof.Machine

/-! ## Encoding -/

/-- R50 to R55: decoding the bytes of any instruction gives it back, and leaves the bytes after them. -/
def Obligations.DecodeOfEncodeIsTheInstruction : Prop :=
  ∀ (i : Instr) (rest : List Byte), decode (encodeBytes i ++ rest) = .ok (i, rest)

/-- R54, R55: a word that decodes to an instruction is that instruction's word, so no bit of a word is dropped (the ignored
y of `8xy6` and `8xyE` is kept as an operand: log entry 10). -/
def Obligations.EncodeOfDecodeIsTheWord : Prop :=
  ∀ (op : Word) (i : Instr), decodeWord op = some i → encode i = op

/-- R54: the 34 rows; a row selects exactly the words that decode to its instruction; no two rows match the same opcode. -/
def Obligations.OpcodeMapSelectsTheInstruction : Prop :=
  opcodeMap.length = 34 ∧
  (∀ r ∈ opcodeMap, ∀ op : Word, r.selects op ↔ ∃ i, decodeWord op = some i ∧ i.mnemonic = r.mnemonic) ∧
  (∀ r ∈ opcodeMap, ∀ q ∈ opcodeMap, ∀ op : Word, r.selects op → q.selects op → r = q)

/-- R57, the sets of its table: the unimplemented words are exactly these. -/
def Obligations.UnimplementedWordsAreExactlyTheListedSets : Prop :=
  ∀ op : Word, decodeWord op = none ↔
    (fieldD1 op = 0x0 ∧ op ≠ 0x00E0 ∧ op ≠ 0x00EE) ∨
    (fieldD1 op = 0x5 ∧ fieldN op ≠ 0) ∨
    (fieldD1 op = 0x8 ∧ fieldN op ∈ [0x8#4, 0x9#4, 0xA#4, 0xB#4, 0xC#4, 0xD#4, 0xF#4]) ∨
    (fieldD1 op = 0x9 ∧ fieldN op ≠ 0) ∨
    (fieldD1 op = 0xE ∧ fieldNN op ∉ [0x9E#8, 0xA1#8]) ∨
    (fieldD1 op = 0xF ∧ fieldNN op ∉ [0x07#8, 0x0A#8, 0x15#8, 0x18#8, 0x1E#8, 0x29#8, 0x33#8, 0x55#8, 0x65#8])

/-- Words of 95_test_vectors.md and of the rules' examples, one or more of each family. -/
def Obligations.ExampleWordsDecode : Prop :=
  decodeWord 0x00E0 = some .cls ∧ decodeWord 0x00EE = some .ret ∧ decodeWord 0x1234 = some (.jp 0x234) ∧
  decodeWord 0x3312 = some (.seImm 3 0x12) ∧ decodeWord 0x9120 = some (.sneReg 1 2) ∧
  decodeWord 0x8356 = some (.shr 3 5) ∧ decodeWord 0xC00F = some (.rnd 0 0x0F) ∧ decodeWord 0xA2F0 = some (.ldI 0x2F0) ∧
  decodeWord 0xF265 = some (.ldVxMem 2) ∧ decodeWord 0xD015 = some (.drw 0 1 5) ∧ decodeWord 0xE19E = some (.skp 1) ∧
  decodeWord 0xF118 = some (.ldStVx 1) ∧ decodeWord 0x5121 = none ∧ decodeWord 0x0123 = none

/-! ## The cycle -/

/-- R60, R61, R110: the word at pc runs as its instruction on the state with pc advanced by 2, and a cycle that leaves
the block Running then ticks both timers. -/
def Obligations.StepRunsTheDecodedInstruction : Prop :=
  ∀ (s t : State) (op : Word) (i : Instr), s.run = .running → WordAtPc s op → decodeWord op = some i →
    exec i { s with pc := s.pc + 2 } = .next t →
    step s = .next (if t.run = .running then
      { t with dt := if t.dt = 0 then 0 else t.dt - 1, st := if t.st = 0 then 0 else t.st - 1 } else t)

/-- Derived from R117 and R119 (log entry 2 fixes the outcome): a cycle of a Running block always answers a next state, and a cycle of a
Halted block answers the fault it halted with. -/
def Obligations.CycleStopsOnlyOnAHaltedBlock : Prop :=
  (∀ s : State, s.run = .running → ∃ t, step s = .next t) ∧
  (∀ (s : State) (f : FaultRecord), s.run = .halted f → step s = .fault (.halted f))

/-- R44: a fetch at pc > 0xFFE raises FETCH_OUT_OF_RANGE with the pc and changes nothing else. -/
def Obligations.FetchAboveMemoryFaults : Prop :=
  ∀ s : State, s.run = .running → s.pc.toNat > 0xFFE →
    step s = .next { s with run := .halted ⟨.fetchOutOfRange, s.pc, none, s.pc⟩ }

/-- R57, R117: executing an unimplemented word raises UNIMPLEMENTED_OPCODE, with the word in the record, and changes nothing else. -/
def Obligations.UnimplementedWordFaults : Prop :=
  ∀ (s : State) (op : Word), s.run = .running → WordAtPc s op → decodeWord op = none →
    step s = .next { s with run := .halted ⟨.unimplementedOpcode, s.pc, some op, 0⟩ }

/-- R118, R24: a cycle that leaves the block Halted commits nothing but the run state; the record holds the pc and, unless
the fetch itself failed, the word that stood there. -/
def Obligations.FaultingCycleCommitsNothing : Prop :=
  ∀ (s t : State) (f : FaultRecord), s.run = .running → step s = .next t → t.run = .halted f →
    t = { s with run := .halted f } ∧ f.addr = s.pc ∧
    (s.pc.toNat > 0xFFE → f.opcode = none) ∧ (∀ op, WordAtPc s op → f.opcode = some op)

/-- R117, R120: an instruction that was fetched and decoded can raise its own fault only, and most can raise none. -/
def Obligations.InstructionRaisesOnlyItsOwnFault : Prop :=
  ∀ (s t : State) (i : Instr) (f : FaultRecord), RunsNext s i → step s = .next t → t.run = .halted f →
    ownFault i = some f.code

/-- R110: every completed cycle ticks both timers once, after the instruction; only `Fx15` and `Fx18` change what is
ticked; a cycle that faults ticks nothing. That a Halted block has no next state is the model's choice (log entry 2). -/
def Obligations.EveryCompletedCycleTicksTheTimers : Prop :=
  (∀ (s t : State) (i : Instr), RunsNext s i → step s = .next t → t.run = .running →
    t.dt.toNat = (match i with | .ldDtVx x => s.getV x | _ => s.dt).toNat - 1 ∧
    t.st.toNat = (match i with | .ldStVx x => s.getV x | _ => s.st).toNat - 1) ∧
  (∀ (s t : State) (f : FaultRecord), step s = .next t → t.run = .halted f → t.dt = s.dt ∧ t.st = s.st) ∧
  (∀ (s t : State) (f : FaultRecord), s.run = .halted f → step s ≠ .next t)

/-! ## Invariants -/

/-- The state after `new()` meets the invariant, the reset state and that of any other FONT. -/
def Obligations.ResetMeetsTheInvariant : Prop := State.reset.Inv ∧ ∀ font : Font, (State.resetWith font).Inv

/-- R16, R19: from every state that meets the invariant, a step leads to a state that meets it. -/
def Obligations.EveryStepKeepsTheInvariant : Prop :=
  ∀ s t : State, s.Inv → step s = .next t → t.Inv

/-- R16, R19, R29, R31: in every state of a session, for any FONT and whatever the host does between cycles, the invariant
holds: pc is at most 0x10FE, SP is in 0..16, the memory is in canonical form. -/
def Obligations.ReachableStatesMeetTheInvariant : Prop := ∀ s : State, Reachable s → s.Inv

/-- R119: a Halted block stays Halted with the same record under every host operation but `new()`, and `new()` makes it
Running at the entry point. That `cycle()` answers no next state there is the model's choice (log entry 2). -/
def Obligations.OnlyNewLeavesHalted : Prop :=
  ∀ (o : HostOp) (s t : State) (f : FaultRecord), s.run = .halted f → applyOp o s = .next t →
    (o ≠ .new → t.run = .halted f) ∧ (o = .new → t.run = .running ∧ t.pc = 0x200)

/-! ## Who writes what, over all instructions -/

/-- R42: memory changes in a cycle only at the bytes that `Fx33` or `Fx55` stores to, which start at I. -/
def Obligations.OnlyStoresChangeMemory : Prop :=
  ∀ (s t : State) (i : Instr) (a : Nat), RunsNext s i → step s = .next t →
    ¬ (s.i.toNat ≤ a ∧ a < s.i.toNat + storedCount i) → t.readByte a = s.readByte a

/-- R18, R19: only `2nnn` writes a stack slot, and only `2nnn` and `00EE` move SP. -/
def Obligations.OnlyCallAndReturnTouchTheStack : Prop :=
  ∀ (s t : State) (i : Instr), RunsNext s i → step s = .next t →
    ((¬ ∃ nnn, i = .call nnn) → Part.same s t .stack) ∧
    ((¬ ∃ nnn, i = .call nnn) → i ≠ .ret → t.sp = s.sp)

/-- R17, R93: only `Annn`, `Fx1E` and `Fx29` write I. -/
def Obligations.OnlyThreeInstructionsWriteI : Prop :=
  ∀ (s t : State) (i : Instr), RunsNext s i → step s = .next t → t.i ≠ s.i →
    (∃ nnn, i = .ldI nnn) ∨ (∃ x, i = .addIVx x) ∨ (∃ x, i = .ldFVx x)

/-- R22, R23: a cycle never changes the keypad, and only `00E0` and `Dxyn` change the display. -/
def Obligations.OnlyDrawAndClearChangeTheDisplay : Prop :=
  ∀ (s t : State) (i : Instr), RunsNext s i → step s = .next t →
    Part.same s t .key ∧ (i ≠ .cls → (¬ ∃ x y n, i = .drw x y n) → Part.same s t .fb)

/-- R14: VF changes only in the instructions that write it as a flag, or as their destination; and a flag written where VF is not
the destination is 0 or 1. -/
def Obligations.OnlyTheListedInstructionsWriteVF : Prop :=
  (∀ (s t : State) (i : Instr), RunsNext s i → step s = .next t → t.getV 15 ≠ s.getV 15 →
    writesFlag i = true ∨ writesVfAsDestination i = true) ∧
  (∀ (s t : State) (x y : Reg), x ≠ 15 →
    ∀ i ∈ [Instr.addReg x y, .sub x y, .subn x y, .shr x y, .shl x y], exec i s = .next t → t.getV 15 = 0 ∨ t.getV 15 = 1)

/-! ## Control transfer -/

/-- R69: JP. -/
def Obligations.JumpGoesToNnn : Prop :=
  ∀ (nnn : BitVec 12) (s : State), decodeWord (0x1#4 ++ nnn) = some (.jp nnn) ∧
    ∃ t, exec (.jp nnn) s = .next t ∧ t.pc.toNat = nnn.toNat ∧ OnlyChanges [.pc] s t

/-- R71: JP V0; the sum is not reduced modulo 4096. -/
def Obligations.JumpWithOffsetGoesToV0PlusNnn : Prop :=
  ∀ (nnn : BitVec 12) (s : State), decodeWord (0xB#4 ++ nnn) = some (.jpV0 nnn) ∧
    ∃ t, exec (.jpV0 nnn) s = .next t ∧ t.pc.toNat = (s.getV 0).toNat + nnn.toNat ∧ OnlyChanges [.pc] s t

/-- R70: CALL pushes the advanced pc and jumps; with SP = 16 it raises STACK_OVERFLOW. -/
def Obligations.CallPushesThePcOrOverflows : Prop :=
  ∀ (nnn : BitVec 12) (s : State), decodeWord (0x2#4 ++ nnn) = some (.call nnn) ∧
    (∀ h : s.sp.toNat < 16, ∃ t, exec (.call nnn) s = .next t ∧ t.pc.toNat = nnn.toNat ∧
      t.stack[s.sp.toNat] = s.pc ∧ (∀ k : Fin 16, k.val ≠ s.sp.toNat → t.stack[k.val] = s.stack[k.val]) ∧
      t.sp.toNat = s.sp.toNat + 1 ∧ OnlyChanges [.pc, .stack, .sp] s t) ∧
    (s.sp.toNat = 16 → ∃ t, exec (.call nnn) s = .next t ∧ TakesFault .stackOverflow (0x2#4 ++ nnn) 0 s t)

/-- R68: RET pops the return address into pc; with SP = 0 it raises STACK_UNDERFLOW. -/
def Obligations.ReturnPopsThePcOrUnderflows : Prop :=
  decodeWord 0x00EE = some .ret ∧ ∀ s : State,
    (∀ _ : 0 < s.sp.toNat, ∀ _ : s.sp.toNat ≤ 16, ∃ t, exec .ret s = .next t ∧ t.pc = s.stack[s.sp.toNat - 1] ∧
      t.sp.toNat = s.sp.toNat - 1 ∧ OnlyChanges [.pc, .sp] s t) ∧
    (s.sp.toNat = 0 → ∃ t, exec .ret s = .next t ∧ TakesFault .stackUnderflow 0x00EE 0 s t)

/-- R70's round trip: a call, then a return at its target, come back to the instruction after the call with SP as before. -/
def Obligations.CallThenReturnComesBack : Prop :=
  ∀ (s : State) (nnn : BitVec 12), RunsNext s (.call nnn) → s.sp.toNat < 16 → nnn.toNat ≤ 0xFFE →
    s.readByte nnn.toNat = 0x00 → s.readByte (nnn.toNat + 1) = 0xEE →
    ∃ t u, step s = .next t ∧ step t = .next u ∧ u.pc = s.pc + 2 ∧ u.sp = s.sp ∧ u.run = .running

/-- R73, R74: the skips on an immediate. -/
def Obligations.ImmediateSkipsAddTwo : Prop :=
  ∀ (x : Reg) (nn : Byte) (s : State),
    decodeWord (0x3#4 ++ nibble x ++ nn) = some (.seImm x nn) ∧ decodeWord (0x4#4 ++ nibble x ++ nn) = some (.sneImm x nn) ∧
    (∃ t, exec (.seImm x nn) s = .next t ∧ t.pc = (if s.getV x = nn then s.pc + 2 else s.pc) ∧ OnlyChanges [.pc] s t) ∧
    (∃ t, exec (.sneImm x nn) s = .next t ∧ t.pc = (if s.getV x = nn then s.pc else s.pc + 2) ∧ OnlyChanges [.pc] s t)

/-- R75, R76: the skips on two registers. -/
def Obligations.RegisterSkipsAddTwo : Prop :=
  ∀ (x y : Reg) (s : State),
    (∀ n : BitVec 4, n ≠ 0 → decodeWord (0x5#4 ++ nibble x ++ nibble y ++ n) = none ∧
      decodeWord (0x9#4 ++ nibble x ++ nibble y ++ n) = none) ∧
    decodeWord (0x5#4 ++ nibble x ++ nibble y ++ 0x0#4) = some (.seReg x y) ∧
    decodeWord (0x9#4 ++ nibble x ++ nibble y ++ 0x0#4) = some (.sneReg x y) ∧
    (∃ t, exec (.seReg x y) s = .next t ∧ t.pc = (if s.getV x = s.getV y then s.pc + 2 else s.pc) ∧ OnlyChanges [.pc] s t) ∧
    (∃ t, exec (.sneReg x y) s = .next t ∧ t.pc = (if s.getV x = s.getV y then s.pc else s.pc + 2) ∧ OnlyChanges [.pc] s t)

/-! ## Loads, arithmetic, logic, shifts, random -/

/-- R81, R83: the register loads; VF changes only as the destination. -/
def Obligations.RegisterLoadsCopyTheOperand : Prop :=
  ∀ (x y : Reg) (nn : Byte) (s : State),
    decodeWord (0x6#4 ++ nibble x ++ nn) = some (.ldImm x nn) ∧
    decodeWord (0x8#4 ++ nibble x ++ nibble y ++ 0x0#4) = some (.ldReg x y) ∧
    (∃ t, exec (.ldImm x nn) s = .next t ∧ t.getV x = nn ∧ RegsKeptBut [x] s t ∧ OnlyChanges [.v] s t) ∧
    (∃ t, exec (.ldReg x y) s = .next t ∧ t.getV x = s.getV y ∧ RegsKeptBut [x] s t ∧ OnlyChanges [.v] s t)

/-- R82: ADD immediate wraps modulo 256 and sets no carry. -/
def Obligations.AddImmediateWrapsWithoutCarry : Prop :=
  ∀ (x : Reg) (nn : Byte) (s : State), decodeWord (0x7#4 ++ nibble x ++ nn) = some (.addImm x nn) ∧
    ∃ t, exec (.addImm x nn) s = .next t ∧ (t.getV x).toNat = ((s.getV x).toNat + nn.toNat) % 256 ∧
      RegsKeptBut [x] s t ∧ OnlyChanges [.v] s t

/-- R84, R85, R86: the logic instructions, bit by bit; they do not touch VF. -/
def Obligations.LogicWorksBitByBit : Prop :=
  ∀ (x y : Reg) (s : State),
    decodeWord (0x8#4 ++ nibble x ++ nibble y ++ 0x1#4) = some (.orReg x y) ∧
    decodeWord (0x8#4 ++ nibble x ++ nibble y ++ 0x2#4) = some (.andReg x y) ∧
    decodeWord (0x8#4 ++ nibble x ++ nibble y ++ 0x3#4) = some (.xorReg x y) ∧
    (∃ t, exec (.orReg x y) s = .next t ∧ RegsKeptBut [x] s t ∧ OnlyChanges [.v] s t ∧
      ∀ k, (t.getV x).getLsbD k = ((s.getV x).getLsbD k || (s.getV y).getLsbD k)) ∧
    (∃ t, exec (.andReg x y) s = .next t ∧ RegsKeptBut [x] s t ∧ OnlyChanges [.v] s t ∧
      ∀ k, (t.getV x).getLsbD k = ((s.getV x).getLsbD k && (s.getV y).getLsbD k)) ∧
    (∃ t, exec (.xorReg x y) s = .next t ∧ RegsKeptBut [x] s t ∧ OnlyChanges [.v] s t ∧
      ∀ k, (t.getV x).getLsbD k = ((s.getV x).getLsbD k ^^ (s.getV y).getLsbD k))

/-- R87, R77: ADD with carry out; with x = 15 the sum wins over the carry. -/
def Obligations.AddSetsVFToTheCarry : Prop :=
  ∀ (x y : Reg) (s : State), decodeWord (0x8#4 ++ nibble x ++ nibble y ++ 0x4#4) = some (.addReg x y) ∧
    ∃ t, exec (.addReg x y) s = .next t ∧ (t.getV x).toNat = ((s.getV x).toNat + (s.getV y).toNat) % 256 ∧
      (x ≠ 15 → t.getV 15 = if (s.getV x).toNat + (s.getV y).toNat > 255 then 1 else 0) ∧
      RegsKeptBut [x, 15] s t ∧ OnlyChanges [.v] s t

/-- R88, R77: SUB; VF is 1 only where Vx > Vy; with x = 15 the difference wins. -/
def Obligations.SubSetsVFWhenVxIsGreater : Prop :=
  ∀ (x y : Reg) (s : State), decodeWord (0x8#4 ++ nibble x ++ nibble y ++ 0x5#4) = some (.sub x y) ∧
    ∃ t, exec (.sub x y) s = .next t ∧
      ((t.getV x).toNat : Int) = (((s.getV x).toNat : Int) - ((s.getV y).toNat : Int)) % 256 ∧
      (x ≠ 15 → t.getV 15 = if (s.getV x).toNat > (s.getV y).toNat then 1 else 0) ∧
      RegsKeptBut [x, 15] s t ∧ OnlyChanges [.v] s t

/-- R89, R77: SUBN; VF is 1 only where Vy > Vx; with x = 15 the difference wins. -/
def Obligations.SubnSetsVFWhenVyIsGreater : Prop :=
  ∀ (x y : Reg) (s : State), decodeWord (0x8#4 ++ nibble x ++ nibble y ++ 0x7#4) = some (.subn x y) ∧
    ∃ t, exec (.subn x y) s = .next t ∧
      ((t.getV x).toNat : Int) = (((s.getV y).toNat : Int) - ((s.getV x).toNat : Int)) % 256 ∧
      (x ≠ 15 → t.getV 15 = if (s.getV y).toNat > (s.getV x).toNat then 1 else 0) ∧
      RegsKeptBut [x, 15] s t ∧ OnlyChanges [.v] s t

/-- R90, R91, R77: the shifts of Vx by one, with any y field; VF is the bit shifted out. -/
def Obligations.ShiftsSetVFToTheBitShiftedOut : Prop :=
  ∀ (x y : Reg) (s : State),
    decodeWord (0x8#4 ++ nibble x ++ nibble y ++ 0x6#4) = some (.shr x y) ∧
    decodeWord (0x8#4 ++ nibble x ++ nibble y ++ 0xE#4) = some (.shl x y) ∧
    (∃ t, exec (.shr x y) s = .next t ∧ (t.getV x).toNat = (s.getV x).toNat / 2 ∧
      (x ≠ 15 → (t.getV 15).toNat = (s.getV x).toNat % 2) ∧ RegsKeptBut [x, 15] s t ∧ OnlyChanges [.v] s t) ∧
    (∃ t, exec (.shl x y) s = .next t ∧ (t.getV x).toNat = 2 * (s.getV x).toNat % 256 ∧
      (x ≠ 15 → (t.getV 15).toNat = (s.getV x).toNat / 128 % 2) ∧ RegsKeptBut [x, 15] s t ∧ OnlyChanges [.v] s t)

/-- Derived from R92 (the draw is the free value of log entry 4, whatever it is): RND takes one fresh draw under the mask. -/
def Obligations.RandomIsOneFreshDrawUnderTheMask : Prop :=
  ∀ (x : Reg) (nn : Byte) (s : State), decodeWord (0xC#4 ++ nibble x ++ nn) = some (.rnd x nn) ∧
    ∃ t, exec (.rnd x nn) s = .next t ∧
      (∀ k, (t.getV x).getLsbD k = ((Config.randomByte s.draws).getLsbD k && nn.getLsbD k)) ∧
      t.draws = s.draws + 1 ∧ RegsKeptBut [x] s t ∧ OnlyChanges [.v, .draws] s t

/-! ## Index register and memory -/

/-- R94, R95, R96: the writes of I; VF never changes. -/
def Obligations.IndexInstructionsWriteI : Prop :=
  ∀ (nnn : BitVec 12) (x : Reg) (s : State),
    decodeWord (0xA#4 ++ nnn) = some (.ldI nnn) ∧ decodeWord (0xF#4 ++ nibble x ++ 0x1E#8) = some (.addIVx x) ∧
    decodeWord (0xF#4 ++ nibble x ++ 0x29#8) = some (.ldFVx x) ∧
    (∃ t, exec (.ldI nnn) s = .next t ∧ t.i.toNat = nnn.toNat ∧ OnlyChanges [.i] s t) ∧
    (∃ t, exec (.addIVx x) s = .next t ∧ t.i.toNat = (s.i.toNat + (s.getV x).toNat) % 65536 ∧ OnlyChanges [.i] s t) ∧
    (∃ t, exec (.ldFVx x) s = .next t ∧ t.i.toNat = 0x050 + 5 * (s.getV x).toNat ∧ OnlyChanges [.i] s t)

/-- R97: the decimal digits at I, I+1, I+2, or MEMORY_OUT_OF_RANGE with nothing written. -/
def Obligations.DigitStoreWritesThreeBytesOrFaults : Prop :=
  ∀ (x : Reg) (s : State), decodeWord (0xF#4 ++ nibble x ++ 0x33#8) = some (.ldBVx x) ∧
    (s.i.toNat + 2 ≤ 0xFFF → ∃ t, exec (.ldBVx x) s = .next t ∧
      (t.readByte s.i.toNat).toNat = (s.getV x).toNat / 100 ∧
      (t.readByte (s.i.toNat + 1)).toNat = (s.getV x).toNat / 10 % 10 ∧
      (t.readByte (s.i.toNat + 2)).toNat = (s.getV x).toNat % 10 ∧
      MemKeptOutside s.i.toNat 3 s t ∧ OnlyChanges [.mem] s t) ∧
    (s.i.toNat + 2 > 0xFFF → ∃ t d, exec (.ldBVx x) s = .next t ∧ IsFirstOutside s d ∧
      TakesFault .memoryOutOfRange (0xF#4 ++ nibble x ++ 0x33#8) d s t)

/-- R98: V0..Vx to memory from I on, or MEMORY_OUT_OF_RANGE with nothing written; I unchanged. -/
def Obligations.RegisterStoreWritesV0ToVxOrFaults : Prop :=
  ∀ (x : Reg) (s : State), decodeWord (0xF#4 ++ nibble x ++ 0x55#8) = some (.ldMemVx x) ∧
    (s.i.toNat + x.val ≤ 0xFFF → ∃ t, exec (.ldMemVx x) s = .next t ∧
      (∀ k : Reg, k.val ≤ x.val → t.readByte (s.i.toNat + k.val) = s.getV k) ∧
      MemKeptOutside s.i.toNat (x.val + 1) s t ∧ OnlyChanges [.mem] s t) ∧
    (s.i.toNat + x.val > 0xFFF → ∃ t d, exec (.ldMemVx x) s = .next t ∧ IsFirstOutside s d ∧
      TakesFault .memoryOutOfRange (0xF#4 ++ nibble x ++ 0x55#8) d s t)

/-- R99: V0..Vx from memory from I on, or MEMORY_OUT_OF_RANGE with nothing loaded; I unchanged. -/
def Obligations.RegisterLoadReadsV0ToVxOrFaults : Prop :=
  ∀ (x : Reg) (s : State), decodeWord (0xF#4 ++ nibble x ++ 0x65#8) = some (.ldVxMem x) ∧
    (s.i.toNat + x.val ≤ 0xFFF → ∃ t, exec (.ldVxMem x) s = .next t ∧
      (∀ k : Reg, k.val ≤ x.val → t.getV k = s.readByte (s.i.toNat + k.val)) ∧
      (∀ k : Reg, k.val > x.val → t.getV k = s.getV k) ∧ OnlyChanges [.v] s t) ∧
    (s.i.toNat + x.val > 0xFFF → ∃ t d, exec (.ldVxMem x) s = .next t ∧ IsFirstOutside s d ∧
      TakesFault .memoryOutOfRange (0xF#4 ++ nibble x ++ 0x65#8) d s t)

/-- Derived from R48 and R98: a word stored by `Fx55` over the next instruction is the word the next cycle fetches. -/
def Obligations.StoredWordIsFetchedNext : Prop :=
  ∀ (s : State) (x : Reg), RunsNext s (.ldMemVx x) → 1 ≤ x.val → s.i = s.pc + 2 → s.i.toNat + x.val ≤ 0xFFF →
    ∃ t, step s = .next t ∧ t.run = .running ∧ t.pc = s.i ∧ t.fetch = some (s.getV 0 ++ s.getV 1)

/-! ## Display -/

/-- R101: CLS. -/
def Obligations.ClearTurnsEveryCellOff : Prop :=
  decodeWord 0x00E0 = some .cls ∧ ∀ s : State,
    ∃ t, exec .cls s = .next t ∧ (∀ r c, t.fb.cell r c = false) ∧ OnlyChanges [.fb] s t

/-- R102: DRW toggles exactly the cells its 1 bits land on, each wrapped on its own; VF is the collision; the origin and
the collision are those of the state before the instruction, VF as x or y included. -/
def Obligations.DrawXorsTheSpriteAndReportsCollision : Prop :=
  ∀ (x y : Reg) (n : BitVec 4) (s : State), decodeWord (0xD#4 ++ nibble x ++ nibble y ++ n) = some (.drw x y n) ∧
    (SpriteInRange s n → ∃ t, exec (.drw x y n) s = .next t ∧
      (∀ r c, SpriteHits s x y n r c → t.fb.cell r c = !s.fb.cell r c) ∧
      (∀ r c, ¬ SpriteHits s x y n r c → t.fb.cell r c = s.fb.cell r c) ∧
      ((∃ r c, SpriteHits s x y n r c ∧ s.fb.cell r c = true) → t.getV 15 = 1) ∧
      ((∀ r c, SpriteHits s x y n r c → s.fb.cell r c = false) → t.getV 15 = 0) ∧
      RegsKeptBut [15] s t ∧ OnlyChanges [.v, .fb] s t) ∧
    (¬ SpriteInRange s n → ∃ t d, exec (.drw x y n) s = .next t ∧ IsFirstOutside s d ∧
      TakesFault .memoryOutOfRange (0xD#4 ++ nibble x ++ nibble y ++ n) d s t)

/-- From R102 (R103 (1), as log entry 17 reads it): drawing the same sprite at the same place again restores the display;
the second draw gives VF = 1 exactly when a 1 bit lands on a cell that was off before the first; a sprite with no 1 bit
gives VF = 0 on both draws. -/
def Obligations.DrawingTwiceRestoresTheDisplay : Prop :=
  ∀ (x y : Reg) (n : BitVec 4) (s t s' u : State), SpriteInRange s n →
    exec (.drw x y n) s = .next t → s'.getV x = s.getV x → s'.getV y = s.getV y → s'.i = s.i →
    Part.same s s' .mem → Part.same t s' .fb → exec (.drw x y n) s' = .next u →
    Part.same s u .fb ∧
    ((∃ r c, SpriteHits s x y n r c ∧ s.fb.cell r c = false) → u.getV 15 = 1) ∧
    ((∀ r c, SpriteHits s x y n r c → s.fb.cell r c = true) → u.getV 15 = 0) ∧
    ((∀ j, j < n.toNat → s.readByte (s.i.toNat + j) = 0) → t.getV 15 = 0 ∧ u.getV 15 = 0)

/-- R103 (2): a draw sets VF to 1 exactly when it turns at least one cell from on to off, and to 0 otherwise. -/
def Obligations.CollisionIsACellTurnedOff : Prop :=
  ∀ (x y : Reg) (n : BitVec 4) (s t : State), SpriteInRange s n → exec (.drw x y n) s = .next t →
    ((∃ r c, s.fb.cell r c = true ∧ t.fb.cell r c = false) → t.getV 15 = 1) ∧
    ((¬ ∃ r c, s.fb.cell r c = true ∧ t.fb.cell r c = false) → t.getV 15 = 0)

/-! ## Keypad -/

/-- R105, R106, R107: the key skips, or KEY_INDEX_OUT_OF_RANGE with the value V[x] where it is above 15. -/
def Obligations.KeySkipsTestTheKeyOrFault : Prop :=
  ∀ (x : Reg) (s : State),
    decodeWord (0xE#4 ++ nibble x ++ 0x9E#8) = some (.skp x) ∧ decodeWord (0xE#4 ++ nibble x ++ 0xA1#8) = some (.sknp x) ∧
    (∀ h : (s.getV x).toNat ≤ 15,
      (∃ t, exec (.skp x) s = .next t ∧
        t.pc = (if s.key[(s.getV x).toNat] = true then s.pc + 2 else s.pc) ∧ OnlyChanges [.pc] s t) ∧
      (∃ t, exec (.sknp x) s = .next t ∧
        t.pc = (if s.key[(s.getV x).toNat] = true then s.pc else s.pc + 2) ∧ OnlyChanges [.pc] s t)) ∧
    ((s.getV x).toNat > 15 →
      (∃ t d, exec (.skp x) s = .next t ∧ d.toNat = (s.getV x).toNat ∧
        TakesFault .keyIndexOutOfRange (0xE#4 ++ nibble x ++ 0x9E#8) d s t) ∧
      (∃ t d, exec (.sknp x) s = .next t ∧ d.toNat = (s.getV x).toNat ∧
        TakesFault .keyIndexOutOfRange (0xE#4 ++ nibble x ++ 0xA1#8) d s t))

/-- R108: the lowest pressed key goes into Vx; with no key pressed pc goes back to this instruction and nothing else changes. -/
def Obligations.KeyWaitTakesTheLowestKeyOrRepeats : Prop :=
  ∀ (x : Reg) (s : State), decodeWord (0xF#4 ++ nibble x ++ 0x0A#8) = some (.ldVxK x) ∧
    (∀ k : Fin 16, s.key[k.val] = true → (∀ j : Fin 16, j < k → s.key[j.val] = false) →
      ∃ t, exec (.ldVxK x) s = .next t ∧ (t.getV x).toNat = k.val ∧ RegsKeptBut [x] s t ∧ OnlyChanges [.v] s t) ∧
    ((∀ k : Fin 16, s.key[k.val] = false) →
      ∃ t, exec (.ldVxK x) s = .next t ∧ t.pc = s.pc - 2 ∧ OnlyChanges [.pc] s t)

/-- R108, R137: while no key is pressed, any number of cycles leaves the block waiting at the same `Fx0A`, and only the
timers run. -/
def Obligations.KeyWaitHoldsForAnyNumberOfCycles : Prop :=
  ∀ (x : Reg) (s : State), RunsNext s (.ldVxK x) → (∀ k : Fin 16, s.key[k.val] = false) →
    ∀ k : Nat, ∃ t : State, Host.Core.run core k s = .next t ∧ OnlyChanges [.dt, .st] s t ∧
      t.dt.toNat = s.dt.toNat - k ∧ t.st.toNat = s.st.toNat - k

/-! ## Timers -/

/-- R112, R113, R114: the timer instructions, before the tick of their cycle. -/
def Obligations.TimerInstructionsMoveTheTimers : Prop :=
  ∀ (x : Reg) (s : State),
    decodeWord (0xF#4 ++ nibble x ++ 0x07#8) = some (.ldVxDt x) ∧ decodeWord (0xF#4 ++ nibble x ++ 0x15#8) = some (.ldDtVx x) ∧
    decodeWord (0xF#4 ++ nibble x ++ 0x18#8) = some (.ldStVx x) ∧
    (∃ t, exec (.ldVxDt x) s = .next t ∧ t.getV x = s.dt ∧ RegsKeptBut [x] s t ∧ OnlyChanges [.v] s t) ∧
    (∃ t, exec (.ldDtVx x) s = .next t ∧ t.dt = s.getV x ∧ OnlyChanges [.dt] s t) ∧
    (∃ t, exec (.ldStVx x) s = .next t ∧ t.st = s.getV x ∧ OnlyChanges [.st] s t)

/-- R112, R113, R114, the whole cycle: the timer read is the one before the tick; a timer set is ticked in its own cycle. -/
def Obligations.TimerInstructionsThenTick : Prop :=
  ∀ (x : Reg) (s : State),
    (RunsNext s (.ldVxDt x) → ∃ t, step s = .next t ∧ t.getV x = s.dt ∧ t.dt.toNat = s.dt.toNat - 1 ∧ t.st.toNat = s.st.toNat - 1) ∧
    (RunsNext s (.ldDtVx x) → ∃ t, step s = .next t ∧ t.dt.toNat = (s.getV x).toNat - 1 ∧ t.st.toNat = s.st.toNat - 1) ∧
    (RunsNext s (.ldStVx x) → ∃ t, step s = .next t ∧ t.st.toNat = (s.getV x).toNat - 1 ∧ t.dt.toNat = s.dt.toNat - 1)

/-- R115: `Fx18` with V[x] = 1 leaves sound_active false between cycles; with V[x] > 1 it is true. -/
def Obligations.SoundOfOneTickIsNeverSeen : Prop :=
  ∀ (x : Reg) (s : State), RunsNext s (.ldStVx x) →
    ∃ t, step s = .next t ∧ t.soundActive = decide ((s.getV x).toNat > 1)

/-! ## Reset and the host's operations -/

/-- R130, R119: `new()` completes from every state, used or Halted, and leaves every element at its reset value, for the
block's FONT, whatever its bytes; and `State.reset` is such a state. The draw counter is no element of the block: it is
log entry 5's, and in NoOperationChangesTheFontOrRewindsTheDraws. -/
def Obligations.NewLeavesEveryElementAtItsResetValue : Prop :=
  IsFresh State.reset ∧ ∀ s : State, ∃ t, applyOp .new s = .next t ∧ IsFresh t ∧ t.font = s.font

/-- R34: with nothing loaded, whatever the FONT, the first cycle faults with UNIMPLEMENTED_OPCODE on the word 0x0000. -/
def Obligations.EmptyBlockFaultsOnItsFirstCycle : Prop :=
  ∀ font : Font, step (State.resetWith font) =
    .next { State.resetWith font with run := .halted ⟨.unimplementedOpcode, 0x200, some 0x0000, 0⟩ }

/-- R29: `load` writes the bytes from 0x200 on and nothing else, in either run state; a longer program is LOAD_OVERFLOW, a refusal
(log entry 12), which changes no state. -/
def Obligations.LoadWritesTheProgramOrRefuses : Prop :=
  ∀ (bytes : List Byte) (s : State),
    (bytes.length ≤ 3584 → ∃ t, applyOp (.load bytes) s = .next t ∧
      (∀ k, k < bytes.length → t.readByte (0x200 + k) = bytes[k]?.getD 0) ∧
      MemKeptOutside 0x200 bytes.length s t ∧ OnlyChanges [.mem] s t) ∧
    (bytes.length > 3584 → applyOp (.load bytes) s = .refused .loadOverflow)

/-- R31: `set_key` writes one key and nothing else, in either run state; an index above 15 is KEY_INDEX_INVALID, a refusal (log
entry 12), which changes no state. -/
def Obligations.SetKeyWritesOneKeyOrRefuses : Prop :=
  ∀ (index : Nat) (pressed : Bool) (s : State),
    (∀ h : index ≤ 15, ∃ t, applyOp (.setKey index pressed) s = .next t ∧ t.key[index] = pressed ∧
      (∀ k : Fin 16, k.val ≠ index → t.key[k.val] = s.key[k.val]) ∧ OnlyChanges [.key] s t) ∧
    (index > 15 → applyOp (.setKey index pressed) s = .refused .keyIndexInvalid)

/-- R32: `get_display` is 2048 booleans, and element r*64 + c is fb[r][c]. -/
def Obligations.GetDisplayIsRowMajor : Prop :=
  ∀ s : State, s.getDisplay.length = 2048 ∧
    ∀ (r : Fin 32) (c : Fin 64), s.getDisplay[r.val * 64 + c.val]? = some (s.fb.cell r c)

/-! ## Over all host operations -/

/-- R16, R19, R29, R31, R130: the reset state meets the invariant, and from every state that meets it, every host operation
that completes, a cycle among them, leads to a state that meets it. -/
def Obligations.EveryOperationKeepsTheInvariant : Prop :=
  State.reset.Inv ∧ ∀ (o : HostOp) (s t : State), s.Inv → applyOp o s = .next t → t.Inv

/-- Derived from R7 and R92, in the model's form (log entries 4, 5 and 18): no operation changes the parameter FONT, and none, not even
`new()`, puts the draw counter back, so no later draw is a draw taken before. -/
def Obligations.NoOperationChangesTheFontOrRewindsTheDraws : Prop :=
  ∀ (o : HostOp) (s t : State), applyOp o s = .next t → t.font = s.font ∧ s.draws ≤ t.draws

/-! ## Runs with the host's keys between the cycles -/

/-- R108, R104, R31: `Fx0A` waits any number of cycles with no key pressed, and the first cycle after the host's
`set_key(k, true)` ends the wait with k in Vx; so the run reaches the next instruction. -/
def Obligations.KeyPressedBetweenCyclesEndsTheWait : Prop :=
  ∀ (x : Reg) (s : State) (n : Nat) (k : Fin 16), RunsNext s (.ldVxK x) → (∀ j : Fin 16, s.key[j.val] = false) →
    ∃ t, session (List.replicate n .cycle ++ [.setKey k.val true, .cycle]) s = t ∧ t.run = .running ∧ t.pc = s.pc + 2 ∧
      (t.getV x).toNat = k.val ∧ RegsKeptBut [x] s t ∧ Reaches s (s.pc + 2)

/-- R66: a jump to its own address keeps running there, whatever keys the host sets and however often it calls `cycle()`; each
cycle ticks both timers, and nothing but the timers and the keys changes. -/
def Obligations.JumpToItselfRunsForAsLongAsTheHostCalls : Prop :=
  ∀ (s : State) (nnn : BitVec 12) (ops : List HostOp), RunsNext s (.jp nnn) → s.pc.toNat = nnn.toNat →
    (∀ o ∈ ops, inRun o = true) → OnlyChanges [.dt, .st, .key] s (session ops s) ∧
      (session ops s).dt.toNat = s.dt.toNat - ops.count .cycle ∧ (session ops s).st.toNat = s.st.toNat - ops.count .cycle
end

