-- ==== Sys2Proof/Laws/State.lean ====
section
/-! SUPPORT. What each named update of the state does to each field, and to the reads of registers and memory. -/

namespace Sys2Proof.Machine

variable (s : State)

/-! ### setV -/

@[simp] theorem State.setV_v (x : Reg) (b : Byte) : (s.setV x b).v = s.v.set x.val b := rfl
@[simp] theorem State.setV_pc (x : Reg) (b : Byte) : (s.setV x b).pc = s.pc := rfl
@[simp] theorem State.setV_i (x : Reg) (b : Byte) : (s.setV x b).i = s.i := rfl
@[simp] theorem State.setV_stack (x : Reg) (b : Byte) : (s.setV x b).stack = s.stack := rfl
@[simp] theorem State.setV_sp (x : Reg) (b : Byte) : (s.setV x b).sp = s.sp := rfl
@[simp] theorem State.setV_dt (x : Reg) (b : Byte) : (s.setV x b).dt = s.dt := rfl
@[simp] theorem State.setV_st (x : Reg) (b : Byte) : (s.setV x b).st = s.st := rfl
@[simp] theorem State.setV_key (x : Reg) (b : Byte) : (s.setV x b).key = s.key := rfl
@[simp] theorem State.setV_fb (x : Reg) (b : Byte) : (s.setV x b).fb = s.fb := rfl
@[simp] theorem State.setV_mem (x : Reg) (b : Byte) : (s.setV x b).mem = s.mem := rfl
@[simp] theorem State.setV_run (x : Reg) (b : Byte) : (s.setV x b).run = s.run := rfl
@[simp] theorem State.setV_draws (x : Reg) (b : Byte) : (s.setV x b).draws = s.draws := rfl
@[simp] theorem State.setV_font (x : Reg) (b : Byte) : (s.setV x b).font = s.font := rfl
@[simp] theorem State.readByte_setV (x : Reg) (b : Byte) (n : Nat) : (s.setV x b).readByte n = s.readByte n := rfl

/-! ### setPc -/

@[simp] theorem State.setPc_v (a : Word) : (s.setPc a).v = s.v := rfl
@[simp] theorem State.setPc_pc (a : Word) : (s.setPc a).pc = a := rfl
@[simp] theorem State.setPc_i (a : Word) : (s.setPc a).i = s.i := rfl
@[simp] theorem State.setPc_stack (a : Word) : (s.setPc a).stack = s.stack := rfl
@[simp] theorem State.setPc_sp (a : Word) : (s.setPc a).sp = s.sp := rfl
@[simp] theorem State.setPc_dt (a : Word) : (s.setPc a).dt = s.dt := rfl
@[simp] theorem State.setPc_st (a : Word) : (s.setPc a).st = s.st := rfl
@[simp] theorem State.setPc_key (a : Word) : (s.setPc a).key = s.key := rfl
@[simp] theorem State.setPc_fb (a : Word) : (s.setPc a).fb = s.fb := rfl
@[simp] theorem State.setPc_mem (a : Word) : (s.setPc a).mem = s.mem := rfl
@[simp] theorem State.setPc_run (a : Word) : (s.setPc a).run = s.run := rfl
@[simp] theorem State.setPc_draws (a : Word) : (s.setPc a).draws = s.draws := rfl
@[simp] theorem State.setPc_font (a : Word) : (s.setPc a).font = s.font := rfl
@[simp] theorem State.getV_setPc (a : Word) (r : Reg) : (s.setPc a).getV r = s.getV r := rfl
@[simp] theorem State.readByte_setPc (a : Word) (n : Nat) : (s.setPc a).readByte n = s.readByte n := rfl

/-! ### setI -/

@[simp] theorem State.setI_v (a : Word) : (s.setI a).v = s.v := rfl
@[simp] theorem State.setI_pc (a : Word) : (s.setI a).pc = s.pc := rfl
@[simp] theorem State.setI_i (a : Word) : (s.setI a).i = a := rfl
@[simp] theorem State.setI_stack (a : Word) : (s.setI a).stack = s.stack := rfl
@[simp] theorem State.setI_sp (a : Word) : (s.setI a).sp = s.sp := rfl
@[simp] theorem State.setI_dt (a : Word) : (s.setI a).dt = s.dt := rfl
@[simp] theorem State.setI_st (a : Word) : (s.setI a).st = s.st := rfl
@[simp] theorem State.setI_key (a : Word) : (s.setI a).key = s.key := rfl
@[simp] theorem State.setI_fb (a : Word) : (s.setI a).fb = s.fb := rfl
@[simp] theorem State.setI_mem (a : Word) : (s.setI a).mem = s.mem := rfl
@[simp] theorem State.setI_run (a : Word) : (s.setI a).run = s.run := rfl
@[simp] theorem State.setI_draws (a : Word) : (s.setI a).draws = s.draws := rfl
@[simp] theorem State.setI_font (a : Word) : (s.setI a).font = s.font := rfl
@[simp] theorem State.getV_setI (a : Word) (r : Reg) : (s.setI a).getV r = s.getV r := rfl
@[simp] theorem State.readByte_setI (a : Word) (n : Nat) : (s.setI a).readByte n = s.readByte n := rfl

/-! ### advance -/

@[simp] theorem State.advance_v : (s.advance).v = s.v := rfl
@[simp] theorem State.advance_pc : (s.advance).pc = s.pc + 2 := rfl
@[simp] theorem State.advance_i : (s.advance).i = s.i := rfl
@[simp] theorem State.advance_stack : (s.advance).stack = s.stack := rfl
@[simp] theorem State.advance_sp : (s.advance).sp = s.sp := rfl
@[simp] theorem State.advance_dt : (s.advance).dt = s.dt := rfl
@[simp] theorem State.advance_st : (s.advance).st = s.st := rfl
@[simp] theorem State.advance_key : (s.advance).key = s.key := rfl
@[simp] theorem State.advance_fb : (s.advance).fb = s.fb := rfl
@[simp] theorem State.advance_mem : (s.advance).mem = s.mem := rfl
@[simp] theorem State.advance_run : (s.advance).run = s.run := rfl
@[simp] theorem State.advance_draws : (s.advance).draws = s.draws := rfl
@[simp] theorem State.advance_font : (s.advance).font = s.font := rfl
@[simp] theorem State.getV_advance (r : Reg) : (s.advance).getV r = s.getV r := rfl
@[simp] theorem State.readByte_advance (n : Nat) : (s.advance).readByte n = s.readByte n := rfl

/-! ### skip -/

@[simp] theorem State.skip_v : (s.skip).v = s.v := rfl
@[simp] theorem State.skip_pc : (s.skip).pc = s.pc + 2 := rfl
@[simp] theorem State.skip_i : (s.skip).i = s.i := rfl
@[simp] theorem State.skip_stack : (s.skip).stack = s.stack := rfl
@[simp] theorem State.skip_sp : (s.skip).sp = s.sp := rfl
@[simp] theorem State.skip_dt : (s.skip).dt = s.dt := rfl
@[simp] theorem State.skip_st : (s.skip).st = s.st := rfl
@[simp] theorem State.skip_key : (s.skip).key = s.key := rfl
@[simp] theorem State.skip_fb : (s.skip).fb = s.fb := rfl
@[simp] theorem State.skip_mem : (s.skip).mem = s.mem := rfl
@[simp] theorem State.skip_run : (s.skip).run = s.run := rfl
@[simp] theorem State.skip_draws : (s.skip).draws = s.draws := rfl
@[simp] theorem State.skip_font : (s.skip).font = s.font := rfl
@[simp] theorem State.getV_skip (r : Reg) : (s.skip).getV r = s.getV r := rfl
@[simp] theorem State.readByte_skip (n : Nat) : (s.skip).readByte n = s.readByte n := rfl

/-! ### takeFault -/

@[simp] theorem State.takeFault_v (code : FaultCode) (a : Word) (op : Option Word) (d : Word) : (s.takeFault code a op d).v = s.v := rfl
@[simp] theorem State.takeFault_pc (code : FaultCode) (a : Word) (op : Option Word) (d : Word) : (s.takeFault code a op d).pc = a := rfl
@[simp] theorem State.takeFault_i (code : FaultCode) (a : Word) (op : Option Word) (d : Word) : (s.takeFault code a op d).i = s.i := rfl
@[simp] theorem State.takeFault_stack (code : FaultCode) (a : Word) (op : Option Word) (d : Word) : (s.takeFault code a op d).stack = s.stack := rfl
@[simp] theorem State.takeFault_sp (code : FaultCode) (a : Word) (op : Option Word) (d : Word) : (s.takeFault code a op d).sp = s.sp := rfl
@[simp] theorem State.takeFault_dt (code : FaultCode) (a : Word) (op : Option Word) (d : Word) : (s.takeFault code a op d).dt = s.dt := rfl
@[simp] theorem State.takeFault_st (code : FaultCode) (a : Word) (op : Option Word) (d : Word) : (s.takeFault code a op d).st = s.st := rfl
@[simp] theorem State.takeFault_key (code : FaultCode) (a : Word) (op : Option Word) (d : Word) : (s.takeFault code a op d).key = s.key := rfl
@[simp] theorem State.takeFault_fb (code : FaultCode) (a : Word) (op : Option Word) (d : Word) : (s.takeFault code a op d).fb = s.fb := rfl
@[simp] theorem State.takeFault_mem (code : FaultCode) (a : Word) (op : Option Word) (d : Word) : (s.takeFault code a op d).mem = s.mem := rfl
@[simp] theorem State.takeFault_run (code : FaultCode) (a : Word) (op : Option Word) (d : Word) : (s.takeFault code a op d).run = .halted ⟨code, a, op, d⟩ := rfl
@[simp] theorem State.takeFault_draws (code : FaultCode) (a : Word) (op : Option Word) (d : Word) : (s.takeFault code a op d).draws = s.draws := rfl
@[simp] theorem State.takeFault_font (code : FaultCode) (a : Word) (op : Option Word) (d : Word) : (s.takeFault code a op d).font = s.font := rfl
@[simp] theorem State.getV_takeFault (code : FaultCode) (a : Word) (op : Option Word) (d : Word) (r : Reg) : (s.takeFault code a op d).getV r = s.getV r := rfl
@[simp] theorem State.readByte_takeFault (code : FaultCode) (a : Word) (op : Option Word) (d : Word) (n : Nat) : (s.takeFault code a op d).readByte n = s.readByte n := rfl

/-! ### raiseFault -/

@[simp] theorem State.raiseFault_v (code : FaultCode) (op d : Word) : (s.raiseFault code op d).v = s.v := rfl
@[simp] theorem State.raiseFault_pc (code : FaultCode) (op d : Word) : (s.raiseFault code op d).pc = s.pc - 2 := rfl
@[simp] theorem State.raiseFault_i (code : FaultCode) (op d : Word) : (s.raiseFault code op d).i = s.i := rfl
@[simp] theorem State.raiseFault_stack (code : FaultCode) (op d : Word) : (s.raiseFault code op d).stack = s.stack := rfl
@[simp] theorem State.raiseFault_sp (code : FaultCode) (op d : Word) : (s.raiseFault code op d).sp = s.sp := rfl
@[simp] theorem State.raiseFault_dt (code : FaultCode) (op d : Word) : (s.raiseFault code op d).dt = s.dt := rfl
@[simp] theorem State.raiseFault_st (code : FaultCode) (op d : Word) : (s.raiseFault code op d).st = s.st := rfl
@[simp] theorem State.raiseFault_key (code : FaultCode) (op d : Word) : (s.raiseFault code op d).key = s.key := rfl
@[simp] theorem State.raiseFault_fb (code : FaultCode) (op d : Word) : (s.raiseFault code op d).fb = s.fb := rfl
@[simp] theorem State.raiseFault_mem (code : FaultCode) (op d : Word) : (s.raiseFault code op d).mem = s.mem := rfl
@[simp] theorem State.raiseFault_run (code : FaultCode) (op d : Word) : (s.raiseFault code op d).run = .halted ⟨code, s.pc - 2, some op, d⟩ := rfl
@[simp] theorem State.raiseFault_draws (code : FaultCode) (op d : Word) : (s.raiseFault code op d).draws = s.draws := rfl
@[simp] theorem State.raiseFault_font (code : FaultCode) (op d : Word) : (s.raiseFault code op d).font = s.font := rfl
@[simp] theorem State.getV_raiseFault (code : FaultCode) (op d : Word) (r : Reg) : (s.raiseFault code op d).getV r = s.getV r := rfl
@[simp] theorem State.readByte_raiseFault (code : FaultCode) (op d : Word) (n : Nat) : (s.raiseFault code op d).readByte n = s.readByte n := rfl

/-! ### storeBytes -/

@[simp] theorem State.storeBytes_v (bs : List Byte) : (s.storeBytes bs).v = s.v := rfl
@[simp] theorem State.storeBytes_pc (bs : List Byte) : (s.storeBytes bs).pc = s.pc := rfl
@[simp] theorem State.storeBytes_i (bs : List Byte) : (s.storeBytes bs).i = s.i := rfl
@[simp] theorem State.storeBytes_stack (bs : List Byte) : (s.storeBytes bs).stack = s.stack := rfl
@[simp] theorem State.storeBytes_sp (bs : List Byte) : (s.storeBytes bs).sp = s.sp := rfl
@[simp] theorem State.storeBytes_dt (bs : List Byte) : (s.storeBytes bs).dt = s.dt := rfl
@[simp] theorem State.storeBytes_st (bs : List Byte) : (s.storeBytes bs).st = s.st := rfl
@[simp] theorem State.storeBytes_key (bs : List Byte) : (s.storeBytes bs).key = s.key := rfl
@[simp] theorem State.storeBytes_fb (bs : List Byte) : (s.storeBytes bs).fb = s.fb := rfl
@[simp] theorem State.storeBytes_mem (bs : List Byte) : (s.storeBytes bs).mem = s.mem.writeBytes s.font s.i.toNat bs := rfl
@[simp] theorem State.storeBytes_run (bs : List Byte) : (s.storeBytes bs).run = s.run := rfl
@[simp] theorem State.storeBytes_draws (bs : List Byte) : (s.storeBytes bs).draws = s.draws := rfl
@[simp] theorem State.storeBytes_font (bs : List Byte) : (s.storeBytes bs).font = s.font := rfl
@[simp] theorem State.getV_storeBytes (bs : List Byte) (r : Reg) : (s.storeBytes bs).getV r = s.getV r := rfl

/-! ### tick -/

@[simp] theorem State.tick_v : (s.tick).v = s.v := rfl
@[simp] theorem State.tick_pc : (s.tick).pc = s.pc := rfl
@[simp] theorem State.tick_i : (s.tick).i = s.i := rfl
@[simp] theorem State.tick_stack : (s.tick).stack = s.stack := rfl
@[simp] theorem State.tick_sp : (s.tick).sp = s.sp := rfl
@[simp] theorem State.tick_dt : (s.tick).dt = tickDown s.dt := rfl
@[simp] theorem State.tick_st : (s.tick).st = tickDown s.st := rfl
@[simp] theorem State.tick_key : (s.tick).key = s.key := rfl
@[simp] theorem State.tick_fb : (s.tick).fb = s.fb := rfl
@[simp] theorem State.tick_mem : (s.tick).mem = s.mem := rfl
@[simp] theorem State.tick_run : (s.tick).run = s.run := rfl
@[simp] theorem State.tick_draws : (s.tick).draws = s.draws := rfl
@[simp] theorem State.tick_font : (s.tick).font = s.font := rfl
@[simp] theorem State.getV_tick (r : Reg) : (s.tick).getV r = s.getV r := rfl
@[simp] theorem State.readByte_tick (n : Nat) : (s.tick).readByte n = s.readByte n := rfl

/-! ### skipIf, which is skip or nothing -/

@[simp] theorem State.skipIf_v (c : Bool) : (s.skipIf c).v = s.v := by cases c <;> rfl
@[simp] theorem State.skipIf_pc (c : Bool) : (s.skipIf c).pc = if c then s.pc + 2 else s.pc := by cases c <;> rfl
@[simp] theorem State.skipIf_i (c : Bool) : (s.skipIf c).i = s.i := by cases c <;> rfl
@[simp] theorem State.skipIf_stack (c : Bool) : (s.skipIf c).stack = s.stack := by cases c <;> rfl
@[simp] theorem State.skipIf_sp (c : Bool) : (s.skipIf c).sp = s.sp := by cases c <;> rfl
@[simp] theorem State.skipIf_dt (c : Bool) : (s.skipIf c).dt = s.dt := by cases c <;> rfl
@[simp] theorem State.skipIf_st (c : Bool) : (s.skipIf c).st = s.st := by cases c <;> rfl
@[simp] theorem State.skipIf_key (c : Bool) : (s.skipIf c).key = s.key := by cases c <;> rfl
@[simp] theorem State.skipIf_fb (c : Bool) : (s.skipIf c).fb = s.fb := by cases c <;> rfl
@[simp] theorem State.skipIf_mem (c : Bool) : (s.skipIf c).mem = s.mem := by cases c <;> rfl
@[simp] theorem State.skipIf_run (c : Bool) : (s.skipIf c).run = s.run := by cases c <;> rfl
@[simp] theorem State.skipIf_draws (c : Bool) : (s.skipIf c).draws = s.draws := by cases c <;> rfl
@[simp] theorem State.skipIf_font (c : Bool) : (s.skipIf c).font = s.font := by cases c <;> rfl
@[simp] theorem State.getV_skipIf (c : Bool) (r : Reg) : (s.skipIf c).getV r = s.getV r := by cases c <;> rfl
@[simp] theorem State.readByte_skipIf (c : Bool) (n : Nat) : (s.skipIf c).readByte n = s.readByte n := by cases c <;> rfl

/-! ### A register read after a register write -/

@[simp] theorem State.getV_setV_same (x : Reg) (b : Byte) : (s.setV x b).getV x = b := by
  simp [State.getV, State.setV]

theorem State.getV_setV_other (x r : Reg) (b : Byte) (h : r ≠ x) : (s.setV x b).getV r = s.getV r := by
  have : x.val ≠ r.val := fun e => h (Fin.ext e.symm)
  simp [State.getV, State.setV, this]

theorem State.getV_setV (x r : Reg) (b : Byte) : (s.setV x b).getV r = if r = x then b else s.getV r := by
  by_cases h : r = x
  · subst h; simp
  · simp [h, State.getV_setV_other]

/-! ### The end of a cycle -/

theorem State.finish_of_running (h : s.run = .running) : s.finish = s.tick := by simp [State.finish, h]

theorem State.finish_of_halted (f : FaultRecord) (h : s.run = .halted f) : s.finish = s := by simp [State.finish, h]

@[simp] theorem State.finish_run : s.finish.run = s.run := by
  unfold State.finish; split <;> simp_all

@[simp] theorem State.finish_v : s.finish.v = s.v := by unfold State.finish; split <;> rfl
@[simp] theorem State.finish_pc : s.finish.pc = s.pc := by unfold State.finish; split <;> rfl
@[simp] theorem State.finish_i : s.finish.i = s.i := by unfold State.finish; split <;> rfl
@[simp] theorem State.finish_stack : s.finish.stack = s.stack := by unfold State.finish; split <;> rfl
@[simp] theorem State.finish_sp : s.finish.sp = s.sp := by unfold State.finish; split <;> rfl
@[simp] theorem State.finish_key : s.finish.key = s.key := by unfold State.finish; split <;> rfl
@[simp] theorem State.finish_fb : s.finish.fb = s.fb := by unfold State.finish; split <;> rfl
@[simp] theorem State.finish_mem : s.finish.mem = s.mem := by unfold State.finish; split <;> rfl
@[simp] theorem State.finish_draws : s.finish.draws = s.draws := by unfold State.finish; split <;> rfl
@[simp] theorem State.finish_font : s.finish.font = s.font := by unfold State.finish; split <;> rfl

theorem tickDown_toNat (b : Byte) : (tickDown b).toNat = b.toNat - 1 := by
  unfold tickDown
  split
  · bv_omega
  · omega
@[simp] theorem State.getV_finish (r : Reg) : s.finish.getV r = s.getV r := by unfold State.finish; split <;> rfl
@[simp] theorem State.readByte_finish (n : Nat) : s.finish.readByte n = s.readByte n := by unfold State.finish; split <;> rfl

end Sys2Proof.Machine
end

