-- ==== Sys2Proof/Laws/Alu.lean ====
section
/-! SUPPORT. What an ALU step does to the registers: the destination, VF, the others, and nothing else (42_alu.md R77, R80). -/

namespace Sys2Proof.Machine

variable (s : State) (op : AluOp) (x : Reg) (b : Byte)

/-- The destination holds the result, VF as destination included (R77). -/
theorem State.getV_aluStep_dest : (s.aluStep op x b).getV x = (alu op (s.getV x) b).1 := by
  simp [State.aluStep]

/-- VF, where it is not the destination, holds the flag of an operation that has one. -/
theorem State.getV_aluStep_vf {f : Byte} (hx : x ≠ vf) (hf : (alu op (s.getV x) b).2 = some f) :
    (s.aluStep op x b).getV vf = f := by
  simp [State.aluStep, State.writeFlag, hf, State.getV_setV_other _ _ _ _ (Ne.symm hx)]

/-- An operation without a flag changes only its destination (R80). -/
theorem State.getV_aluStep_noFlag (hf : (alu op (s.getV x) b).2 = none) {r : Reg} (hr : r ≠ x) :
    (s.aluStep op x b).getV r = s.getV r := by
  simp [State.aluStep, State.writeFlag, hf, State.getV_setV_other _ _ _ _ hr]

/-- No ALU step changes a register but its destination and VF. -/
theorem State.getV_aluStep_other {r : Reg} (hr : r ≠ x) (hv : r ≠ vf) : (s.aluStep op x b).getV r = s.getV r := by
  simp only [State.aluStep, State.writeFlag, State.getV_setV_other _ _ _ _ hr]
  split
  · rw [State.getV_setV_other _ _ _ _ hv]
  · rfl

/-- An ALU step changes no field but v. -/
theorem State.aluStep_eq : ∃ v, s.aluStep op x b = { s with v := v } := by
  simp only [State.aluStep, State.writeFlag]
  split <;> exact ⟨_, rfl⟩

end Sys2Proof.Machine
end

