-- ==== Sys2Proof/Laws/Encoding.lean ====
section
/-! SUPPORT. The fields of an encoded word, and a word put together again from its fields: both through their values as numbers. -/

namespace Sys2Proof

/-! ## Encodings and fields as numbers -/

theorem toNat_encNNN (d : BitVec 4) (nnn : BitVec 12) : (encNNN d nnn).toNat = d.toNat * 4096 + nnn.toNat := by
  rw [encNNN, show BitVec.toNat (w := 16) (d ++ nnn) = _ from @BitVec.toNat_append 4 12 d nnn,
    ← Nat.shiftLeft_add_eq_or_of_lt nnn.isLt, Nat.shiftLeft_eq]

theorem toNat_encXNN (d : BitVec 4) (x : Reg) (nn : Byte) :
    (encXNN d x nn).toNat = d.toNat * 4096 + x.val * 256 + nn.toNat := by
  rw [encXNN, show BitVec.toNat (w := 16) (d ++ BitVec.ofFin (w := 4) x ++ nn) = _ from @BitVec.toNat_append 8 8 _ _,
    BitVec.toNat_append, ← Nat.shiftLeft_add_eq_or_of_lt nn.isLt, ← Nat.shiftLeft_add_eq_or_of_lt (BitVec.isLt _)]
  simp only [Nat.shiftLeft_eq, BitVec.toNat_ofFin]
  omega

theorem toNat_encXYN (d : BitVec 4) (x y : Reg) (n : BitVec 4) :
    (encXYN d x y n).toNat = d.toNat * 4096 + x.val * 256 + y.val * 16 + n.toNat := by
  rw [encXYN, show BitVec.toNat (w := 16) (d ++ BitVec.ofFin (w := 4) x ++ BitVec.ofFin (w := 4) y ++ n) = _ from
      @BitVec.toNat_append 12 4 _ _,
    show BitVec.toNat (w := 12) (d ++ BitVec.ofFin (w := 4) x ++ BitVec.ofFin (w := 4) y) = _ from
      @BitVec.toNat_append 8 4 _ _,
    BitVec.toNat_append, ← Nat.shiftLeft_add_eq_or_of_lt n.isLt, ← Nat.shiftLeft_add_eq_or_of_lt (BitVec.isLt _),
    ← Nat.shiftLeft_add_eq_or_of_lt (BitVec.isLt _)]
  simp only [Nat.shiftLeft_eq, BitVec.toNat_ofFin]
  omega

theorem toNat_fieldD1 (op : Word) : (fieldD1 op).toNat = op.toNat / 4096 := by
  have := op.isLt
  simp only [fieldD1, BitVec.extractLsb'_toNat, Nat.shiftRight_eq_div_pow]
  omega

theorem val_fieldX (op : Word) : (fieldX op).val = op.toNat / 256 % 16 := by
  show (op.extractLsb' 8 4).toNat = _
  simp only [BitVec.extractLsb'_toNat, Nat.shiftRight_eq_div_pow]

theorem val_fieldY (op : Word) : (fieldY op).val = op.toNat / 16 % 16 := by
  show (op.extractLsb' 4 4).toNat = _
  simp only [BitVec.extractLsb'_toNat, Nat.shiftRight_eq_div_pow]

theorem toNat_fieldN (op : Word) : (fieldN op).toNat = op.toNat % 16 := by
  simp [fieldN, BitVec.extractLsb'_toNat]

theorem toNat_fieldNN (op : Word) : (fieldNN op).toNat = op.toNat % 256 := by
  simp [fieldNN, BitVec.extractLsb'_toNat]

theorem toNat_fieldNNN (op : Word) : (fieldNNN op).toNat = op.toNat % 4096 := by
  simp [fieldNNN, BitVec.extractLsb'_toNat]

/-! ## The fields of an encoded word -/

section
variable (d n : BitVec 4) (x y : Reg) (nn : Byte) (nnn : BitVec 12)

@[simp] theorem fieldD1_encNNN : fieldD1 (encNNN d nnn) = d := by
  apply BitVec.eq_of_toNat_eq; rw [toNat_fieldD1, toNat_encNNN]; omega

@[simp] theorem fieldNNN_encNNN : fieldNNN (encNNN d nnn) = nnn := by
  apply BitVec.eq_of_toNat_eq; rw [toNat_fieldNNN, toNat_encNNN]; omega

@[simp] theorem fieldD1_encXNN : fieldD1 (encXNN d x nn) = d := by
  apply BitVec.eq_of_toNat_eq; rw [toNat_fieldD1, toNat_encXNN]; omega

@[simp] theorem fieldX_encXNN : fieldX (encXNN d x nn) = x := by
  apply Fin.ext; rw [val_fieldX, toNat_encXNN]; omega

@[simp] theorem fieldNN_encXNN : fieldNN (encXNN d x nn) = nn := by
  apply BitVec.eq_of_toNat_eq; rw [toNat_fieldNN, toNat_encXNN]; omega

@[simp] theorem fieldD1_encXYN : fieldD1 (encXYN d x y n) = d := by
  apply BitVec.eq_of_toNat_eq; rw [toNat_fieldD1, toNat_encXYN]; omega

@[simp] theorem fieldX_encXYN : fieldX (encXYN d x y n) = x := by
  apply Fin.ext; rw [val_fieldX, toNat_encXYN]; omega

@[simp] theorem fieldY_encXYN : fieldY (encXYN d x y n) = y := by
  apply Fin.ext; rw [val_fieldY, toNat_encXYN]; omega

@[simp] theorem fieldN_encXYN : fieldN (encXYN d x y n) = n := by
  apply BitVec.eq_of_toNat_eq; rw [toNat_fieldN, toNat_encXYN]; omega
end

/-! ## A word from its fields -/

theorem encNNN_fields (op : Word) : encNNN (fieldD1 op) (fieldNNN op) = op := by
  apply BitVec.eq_of_toNat_eq; rw [toNat_encNNN, toNat_fieldD1, toNat_fieldNNN]; omega

theorem encXNN_fields (op : Word) : encXNN (fieldD1 op) (fieldX op) (fieldNN op) = op := by
  apply BitVec.eq_of_toNat_eq; rw [toNat_encXNN, toNat_fieldD1, val_fieldX, toNat_fieldNN]; omega

theorem encXYN_fields (op : Word) : encXYN (fieldD1 op) (fieldX op) (fieldY op) (fieldN op) = op := by
  apply BitVec.eq_of_toNat_eq; rw [toNat_encXYN, toNat_fieldD1, val_fieldX, val_fieldY, toNat_fieldN]; omega

/-! ## Words and their two bytes -/

theorem toNat_wordOfBytes (hi lo : Byte) : (wordOfBytes hi lo).toNat = hi.toNat * 256 + lo.toNat := by
  rw [wordOfBytes, show BitVec.toNat (w := 16) (hi ++ lo) = _ from @BitVec.toNat_append 8 8 hi lo,
    ← Nat.shiftLeft_add_eq_or_of_lt lo.isLt, Nat.shiftLeft_eq]

@[simp] theorem wordOfBytes_halves (op : Word) : wordOfBytes (op.extractLsb' 8 8) (op.extractLsb' 0 8) = op := by
  have := op.isLt
  apply BitVec.eq_of_toNat_eq
  simp only [toNat_wordOfBytes, BitVec.extractLsb'_toNat, Nat.shiftRight_eq_div_pow]
  omega

end Sys2Proof
end

