-- ==== Sys2Proof/Laws/Memory.lean ====
section
/-! SUPPORT. The memory: a read after a write, and that every memory operation keeps the canonical form. -/

namespace Sys2Proof.Machine

variable {font : Font}

/-- The byte k of FONT is what address 0x050 + k reads as before any write. -/
theorem unlisted_font (k : Fin 80) : unlisted font (0x050 + k.val) = font[k.val] := by
  have hk : k.val < Config.fontSize := k.isLt
  rw [unlisted, if_pos ⟨Nat.le_add_right _ _, by simp only [Config.fontBase]; omega⟩,
    show 0x050 + k.val - Config.fontBase = k.val from Nat.add_sub_cancel_left _ _, Vector.getElem?_eq_getElem hk]
  rfl

/-- Every address outside 0x050..0x09F reads as 0 before any write. -/
theorem unlisted_outside {a : Nat} (h : ¬ (0x050 ≤ a ∧ a ≤ 0x09F)) : unlisted font a = 0 := by
  rw [unlisted, if_neg]
  simp only [Config.fontBase, Config.fontSize]
  omega

theorem Memory.wf_nil : Memory.wf font [] := ⟨List.Pairwise.nil, by simp⟩

theorem Memory.read_erase (m : Memory) (a b : Nat) :
    Memory.read font (m.erase a) b = if b = a then unlisted font b else Memory.read font m b := by
  induction m with
  | nil => simp [Memory.erase, Memory.read]
  | cons c m ih =>
    rw [Memory.erase] at ih ⊢
    by_cases hc : c.1 = a
    · rw [List.filter_cons_of_neg (by simp [hc]), ih, Memory.read]
      by_cases hb : b = a
      · simp [hb]
      · rw [if_neg hb, if_neg hb, if_neg (by omega)]
    · rw [List.filter_cons_of_pos (by simp [hc]), Memory.read, Memory.read, ih]
      by_cases hb : c.1 = b
      · rw [if_pos hb, if_pos hb, if_neg (by omega)]
      · rw [if_neg hb, if_neg hb]

theorem Memory.read_insert {m : Memory} {a : Nat} (h : ∀ c ∈ m, c.1 ≠ a) (v : Byte) (b : Nat) :
    Memory.read font (Memory.insert a v m) b = if b = a then v else Memory.read font m b := by
  induction m with
  | nil => simp [Memory.insert, Memory.read, eq_comm]
  | cons c m ih =>
    have hc := h c (by simp)
    rw [Memory.insert]
    split
    · rw [Memory.read]; simp only [eq_comm]
    · rw [Memory.read, Memory.read, ih fun d hd => h d (by simp [hd])]
      by_cases hb : c.1 = b
      · rw [if_pos hb, if_pos hb, if_neg (by omega)]
      · rw [if_neg hb, if_neg hb]

theorem Memory.ne_of_mem_erase {m : Memory} {a : Nat} {c : Host.Cell} (h : c ∈ m.erase a) : c.1 ≠ a := by
  simpa using (List.mem_filter.1 h).2

/-- A read after a write: the byte written at its address, every other byte as before. -/
theorem Memory.read_write (m : Memory) (a : Nat) (v : Byte) (b : Nat) :
    Memory.read font (Memory.write font m a v) b = if b = a then v else Memory.read font m b := by
  unfold Memory.write
  split
  · next h =>
    rw [Memory.read_erase]
    split
    · next hb => rw [hb, h]
    · rfl
  · rw [Memory.read_insert fun c hc => Memory.ne_of_mem_erase hc, Memory.read_erase]
    split <;> rfl

theorem Memory.wf_erase {m : Memory} (h : m.wf font) (a : Nat) : (m.erase a).wf font :=
  ⟨h.1.filter _, fun c hc => h.2 c (List.mem_filter.1 hc).1⟩

theorem Memory.mem_insert {a : Nat} {v : Byte} {m : Memory} {c : Host.Cell} (h : c ∈ Memory.insert a v m) :
    c = (a, v) ∨ c ∈ m := by
  induction m with
  | nil => exact .inl (List.mem_singleton.1 h)
  | cons d m ih =>
    unfold Memory.insert at h
    split at h
    · exact List.mem_cons.1 h
    · rcases List.mem_cons.1 h with rfl | h
      · exact .inr (by simp)
      · exact (ih h).imp_right (List.mem_cons_of_mem _)

theorem Memory.pairwise_insert {m : Memory} (h : m.Pairwise (fun c d => c.1 < d.1)) {a : Nat} (ha : ∀ c ∈ m, c.1 ≠ a)
    (v : Byte) : (Memory.insert a v m).Pairwise (fun c d => c.1 < d.1) := by
  induction m with
  | nil => exact List.pairwise_singleton _ _
  | cons c m ih =>
    have ⟨hlt, hm⟩ := List.pairwise_cons.1 h
    have hc := ha c (by simp)
    unfold Memory.insert
    split
    · next hac =>
      refine List.pairwise_cons.2 ⟨fun d hd => ?_, h⟩
      rcases List.mem_cons.1 hd with rfl | hd
      · exact hac
      · exact lt_trans hac (hlt d hd)
    · refine List.pairwise_cons.2 ⟨fun d hd => ?_, ih hm fun d hd => ha d (by simp [hd])⟩
      rcases Memory.mem_insert hd with rfl | hd
      · simp only; omega
      · exact hlt d hd

/-- A write inside the memory keeps the canonical form. -/
theorem Memory.wf_write {m : Memory} (h : m.wf font) {a : Nat} (ha : a < Config.memSize) (v : Byte) : (m.write font a v).wf font := by
  unfold Memory.write
  split
  · exact Memory.wf_erase h a
  · next hv =>
    have he := Memory.wf_erase h a
    refine ⟨Memory.pairwise_insert he.1 (fun c hc => Memory.ne_of_mem_erase hc) v, fun c hc => ?_⟩
    rcases Memory.mem_insert hc with rfl | hc
    · exact ⟨ha, hv⟩
    · exact he.2 c hc

/-- Writing bytes inside the memory keeps the canonical form. -/
theorem Memory.wf_writeBytes {m : Memory} (h : m.wf font) {a : Nat} (bs : List Byte) (ha : a + bs.length ≤ Config.memSize) :
    (m.writeBytes font a bs).wf font := by
  induction bs generalizing m a with
  | nil => exact h
  | cons b bs ih =>
    simp only [List.length_cons] at ha
    exact ih (Memory.wf_write h (by omega) b) (by omega)

/-- A read after writing bytes: the byte of the list inside, the old byte outside. -/
theorem Memory.read_writeBytes (m : Memory) (a : Nat) (bs : List Byte) (b : Nat) :
    Memory.read font (m.writeBytes font a bs) b =
      if a ≤ b ∧ b < a + bs.length then bs[b - a]?.getD 0 else Memory.read font m b := by
  induction bs generalizing m a with
  | nil => rw [if_neg (by simp only [List.length_nil]; omega)]; rfl
  | cons v bs ih =>
    rw [Memory.writeBytes, ih, Memory.read_write, List.length_cons]
    by_cases hb : b = a
    · subst hb; simp
    · by_cases hin : a + 1 ≤ b ∧ b < a + 1 + bs.length
      · have : b - a = (b - (a + 1)) + 1 := by omega
        rw [if_pos hin, if_pos (by omega), this, List.getElem?_cons_succ]
      · rw [if_neg hin, if_neg hb, if_neg (by omega)]

theorem Memory.length_readBytes (m : Memory) (a n : Nat) : (m.readBytes font a n).length = n := by
  induction n generalizing a with
  | zero => rfl
  | succ n ih => simp [Memory.readBytes, ih]

theorem Memory.getElem?_readBytes (m : Memory) (a n k : Nat) (h : k < n) : (m.readBytes font a n)[k]? = some (m.read font (a + k)) := by
  induction n generalizing a k with
  | zero => omega
  | succ n ih =>
    cases k with
    | zero => simp [Memory.readBytes]
    | succ k => simp [Memory.readBytes, ih (a + 1) k (by omega), Nat.add_assoc, Nat.add_comm 1 k]

/-- The memory after `new()` is canonical. -/
theorem State.resetWith_mem_wf : (State.resetWith font).mem.wf font := Memory.wf_nil

end Sys2Proof.Machine
end

