-- ==== Sys2Proof/Laws/Ops.lean ====
section
/-! SUPPORT. One lemma per shared operation: all it can answer, under which condition. -/

namespace Sys2Proof.Machine

variable (s : State)

/-! ## Call stack -/

theorem State.push_of_lt (a : Word) (h : s.sp.toNat < 16) :
    s.push a = some { s with stack := s.stack.set s.sp.toNat a, sp := s.sp + 1 } := by simp [State.push, h]

theorem State.push_of_ge (a : Word) (h : 16 ≤ s.sp.toNat) : s.push a = none := by
  simp [State.push]; omega

theorem State.pop_of_pos (h0 : 0 < s.sp.toNat) (h : s.sp.toNat ≤ 16) :
    s.pop = some (s.stack[s.sp.toNat - 1], { s with sp := s.sp - 1 }) := by simp [State.pop, h, h0]

theorem State.pop_of_zero (h : s.sp.toNat = 0) : s.pop = none := by simp [State.pop, h]

/-! ## Memory through I -/

theorem State.rangeFault_none (count : Nat) (h : count = 0 ∨ s.i.toNat + count - 1 ≤ 0xFFF) : s.rangeFault count = none := by
  rw [State.rangeFault, if_neg (by omega)]

theorem State.rangeFault_some (count : Nat) (h0 : 0 < count) (h : s.i.toNat + count - 1 > 0xFFF) :
    ∃ d, s.rangeFault count = some d ∧ d.toNat = max s.i.toNat 0x1000 := by
  refine ⟨if s.i.toNat < 0x1000 then 0x1000 else s.i, by rw [State.rangeFault, if_pos ⟨h0, h⟩], ?_⟩
  split
  · rw [Nat.max_eq_right (by omega)]; rfl
  · rw [Nat.max_eq_left (by omega)]

theorem State.rangeFault_cases (count : Nat) :
    (s.rangeFault count = none ∧ (count = 0 ∨ s.i.toNat + count - 1 ≤ 0xFFF)) ∨
    ∃ d, s.rangeFault count = some d := by
  unfold State.rangeFault
  split
  · exact .inr ⟨_, rfl⟩
  · exact .inl ⟨rfl, by omega⟩

@[simp] theorem State.readByte_storeBytes (bs : List Byte) (b : Nat) : (s.storeBytes bs).readByte b =
    if s.i.toNat ≤ b ∧ b < s.i.toNat + bs.length then bs[b - s.i.toNat]?.getD 0 else s.readByte b :=
  Memory.read_writeBytes s.mem s.i.toNat bs b

theorem State.length_loadBytes (n : Nat) : (s.loadBytes n).length = n := Memory.length_readBytes _ _ _

theorem State.getElem?_loadBytes (n k : Nat) (h : k < n) : (s.loadBytes n)[k]? = some (s.readByte (s.i.toNat + k)) :=
  Memory.getElem?_readBytes _ _ _ _ h

/-! ## Operand forms -/

theorem decimalDigits_length (b : Byte) : (decimalDigits b).length = 3 := rfl

theorem State.regsUpTo_length (x : Reg) : (s.regsUpTo x).length = x.val + 1 := by
  simp [State.regsUpTo]

theorem State.getElem?_regsUpTo (x k : Reg) (h : k.val ≤ x.val) : (s.regsUpTo x)[k.val]? = some (s.getV k) := by
  have := k.isLt
  simp [State.regsUpTo, State.getV, List.getElem?_take]
  omega

theorem State.getElem_regsLoaded (x k : Reg) : (s.regsLoaded x)[k.val] =
    if k.val ≤ x.val then s.readByte (s.i.toNat + k.val) else s.getV k := by
  simp [State.regsLoaded]

theorem State.keyAt_of_le (b : Byte) (h : b.toNat ≤ 15) : s.keyAt b = some s.key[b.toNat] := by
  rw [State.keyAt, dif_pos (by omega)]

theorem State.keyAt_of_gt (b : Byte) (h : b.toNat > 15) : s.keyAt b = none := by
  rw [State.keyAt, dif_neg (by omega)]

theorem firstPressed_none {keys : List Bool} {k : Nat} : firstPressed keys k = none ↔ ∀ b ∈ keys, b = false := by
  induction keys generalizing k with
  | nil => simp [firstPressed]
  | cons b keys ih => cases b <;> simp [firstPressed, ih]

theorem firstPressed_some {keys : List Bool} {j k : Nat} (hj : keys[j]? = some true)
    (hlow : ∀ i, i < j → keys[i]? = some false) : firstPressed keys k = some (k + j) := by
  induction keys generalizing j k with
  | nil => simp at hj
  | cons b keys ih =>
    cases j with
    | zero => simp at hj; simp [firstPressed, hj]
    | succ j =>
      have hb : b = false := by simpa using hlow 0 (by omega)
      rw [firstPressed, hb, if_neg (by simp), ih (j := j) (by simpa using hj)]
      · congr 1; omega
      · intro i hi; simpa using hlow (i + 1) (by omega)

theorem State.lowestKey_none (h : ∀ k : Fin 16, s.key[k.val] = false) : s.lowestKey = none := by
  refine firstPressed_none.2 fun b hb => ?_
  obtain ⟨k, hk, rfl⟩ := List.mem_iff_getElem.1 hb
  simpa using h ⟨k, by simpa using hk⟩

theorem State.lowestKey_some (k : Fin 16) (h : s.key[k.val] = true) (hlow : ∀ j : Fin 16, j < k → s.key[j.val] = false) :
    s.lowestKey = some k.val := by
  have := firstPressed_some (keys := s.key.toList) (j := k.val) (k := 0) (by simp [h])
    fun i hi => by
      have h16 : i < 16 := by omega
      simpa [h16] using hlow ⟨i, h16⟩ hi
  rw [State.lowestKey, this, Nat.zero_add]

/-! ## Fetch -/

theorem State.fetch_of_gt (h : s.pc.toNat > 0xFFE) : s.fetch = none := by
  rw [State.fetch, if_pos (by simpa [Config.lastFetch] using h)]

theorem State.fetch_of_le (h : s.pc.toNat ≤ 0xFFE) :
    s.fetch = some (wordOfBytes (s.readByte s.pc.toNat) (s.readByte (s.pc.toNat + 1))) := by
  rw [State.fetch, if_neg (by simp only [Config.lastFetch]; omega)]; rfl

end Sys2Proof.Machine
end

