-- ==== Sys2Proof/Laws/Cycle.lean ====
section
/-! SUPPORT. Everything a step can do, said once. -/

namespace Sys2Proof.Machine

/-- exec always answers a next state, which is a Halted one where the instruction faults. -/
theorem exec_answers_next (i : Instr) (s : State) : ∃ t, exec i s = .next t := by
  cases i <;> simp only [exec]
  case ret => unfold execRet; split <;> exact ⟨_, rfl⟩
  case call => unfold execCall; split <;> exact ⟨_, rfl⟩
  case drw => unfold execDrw; split <;> exact ⟨_, rfl⟩
  case skp => unfold execSkp; split <;> exact ⟨_, rfl⟩
  case sknp => unfold execSknp; split <;> exact ⟨_, rfl⟩
  case ldVxK => unfold execLdVxK; split <;> exact ⟨_, rfl⟩
  case ldBVx => unfold execLdBVx; split <;> exact ⟨_, rfl⟩
  case ldMemVx => unfold execLdMemVx; split <;> exact ⟨_, rfl⟩
  case ldVxMem => unfold execLdVxMem; split <;> exact ⟨_, rfl⟩
  all_goals exact ⟨_, rfl⟩

/-- What a step that answers a next state did: the block was Running, and the fetch failed, or the word decoded to
nothing, or its instruction ran on the advanced state and the cycle ended. -/
theorem step_next_cases {s t : State} (h : step s = .next t) : s.run = .running ∧
    ((s.fetch = none ∧ t = s.takeFault .fetchOutOfRange s.pc none s.pc) ∨
     (∃ op, s.fetch = some op ∧ decodeWord op = none ∧ t = s.takeFault .unimplementedOpcode s.pc (some op) 0) ∨
     (∃ op i u, s.fetch = some op ∧ decodeWord op = some i ∧ exec i s.advance = .next u ∧ t = u.finish)) := by
  unfold step cycle at h
  split at h
  · cases h
  · refine ⟨‹_›, ?_⟩
    split at h
    · next op hop =>
      unfold runWord at h
      split at h
      · next i hi =>
        unfold finishAnswer at h
        split at h
        · next u hu => cases h; exact .inr (.inr ⟨op, i, u, hop, hi, hu, rfl⟩)
        · cases h
        · cases h
      · next hn => cases h; exact .inr (.inl ⟨op, hop, hn, rfl⟩)
    · next hn => cases h; exact .inl ⟨hn, rfl⟩

/-- A step of a Running block whose word decodes to i is i's answer with the end of the cycle. -/
theorem step_of_decoded {s : State} {op : Word} {i : Instr} (hr : s.run = .running) (hf : s.fetch = some op)
    (hd : decodeWord op = some i) : step s = finishAnswer (exec i s.advance) := by
  simp [step, cycle, runWord, hr, hf, hd]

/-- A run of k + 1 cycles whose first answers t is the run of k cycles from t. -/
theorem core_run_succ {k : Nat} {s t : State} (h : step s = .next t) :
    Host.Core.run core (k + 1) s = Host.Core.run core k t := by
  refine (Host.Core.run.eq_2 core s k).trans ?_
  rw [show core.step s = Host.Outcome.next t from h]

/-- A state made to run a word is Running and fetches it, its two bytes at pc. -/
theorem State.placeWord_fetch (s : State) (op : Word) : (s.placeWord op).run = .running ∧
    (s.placeWord op).pc.toNat ≤ 0xFFE ∧
    (s.placeWord op).readByte (s.placeWord op).pc.toNat = op.extractLsb' 8 8 ∧
    (s.placeWord op).readByte ((s.placeWord op).pc.toNat + 1) = op.extractLsb' 0 8 ∧
    (s.placeWord op).fetch = some op := by
  have hpc : (s.placeWord op).pc.toNat ≤ 0xFFE := by
    by_cases h : s.pc.toNat > Config.lastFetch
    · simp only [State.placeWord, if_pos h]; decide
    · simp only [State.placeWord, if_neg h]; simp only [Config.lastFetch] at h; omega
  have hb : ∀ b, (s.placeWord op).readByte b =
      if (s.placeWord op).pc.toNat ≤ b ∧ b < (s.placeWord op).pc.toNat + 2 then
        [op.extractLsb' 8 8, op.extractLsb' 0 8][b - (s.placeWord op).pc.toNat]?.getD 0 else s.readByte b :=
    fun b => Memory.read_writeBytes s.mem _ _ b
  refine ⟨rfl, hpc, by simp [hb], by simp [hb], ?_⟩
  rw [State.fetch_of_le _ hpc]
  simp [hb]

/-! ## Sessions -/

@[simp] theorem session_nil (s : State) : session [] s = s := rfl
@[simp] theorem session_cons (o : HostOp) (ops : List HostOp) (s : State) : session (o :: ops) s = session ops (s.after o) := rfl
theorem session_append (ops ops' : List HostOp) (s : State) : session (ops ++ ops') s = session ops' (session ops s) :=
  List.foldl_append

/-- An operation that completes leaves the state it answers. -/
theorem State.after_of_next {o : HostOp} {s t : State} (h : applyOp o s = .next t) : s.after o = t := by
  rw [State.after, h]

/-- All an operation of a run can do: a step, a key written, or nothing (a Halted block, a key index above 15). -/
theorem State.after_cases {o : HostOp} {s : State} (h : inRun o = true) : s.after o = s ∨
    (o = .cycle ∧ step s = .next (s.after o)) ∨
    ∃ index pressed, ∃ hi : index < 16, o = .setKey index pressed ∧ s.after o = { s with key := s.key.set index pressed hi } := by
  cases o with
  | new => cases h
  | load bytes => cases h
  | cycle =>
    show (match step s with | .next t => t | .fault _ => s | .refused _ => s) = s ∨ _
    cases hs : step s with
    | next t => exact .inr (.inl ⟨rfl, by rw [State.after_of_next (o := .cycle) hs]⟩)
    | fault f => exact .inl rfl
    | refused f => exact .inl rfl
  | setKey index pressed =>
    by_cases hi : index < 16
    · exact .inr (.inr ⟨index, pressed, hi, rfl, State.after_of_next (by simp only [applyOp, State.hostSetKey, dif_pos hi])⟩)
    · exact .inl (by simp only [State.after, applyOp, State.hostSetKey, dif_neg hi])

end Sys2Proof.Machine
end

