-- ==== Sys2Proof/Laws/Display.lean ====
section
/-! SUPPORT. The display, cell by cell: the flip of one cell, and what each part of a draw can do to a cell and to the collision. -/

namespace Sys2Proof.Machine

theorem Display.cell_blank (r : Fin 32) (c : Fin 64) : Display.blank.cell r c = false := by
  simp [Display.cell, Display.blank]

/-- A flip toggles its own cell and no other. -/
theorem Display.cell_flip (fb : Display) (r r' : Fin 32) (c c' : Fin 64) :
    (fb.flip r c).cell r' c' = if r' = r ∧ c' = c then !fb.cell r' c' else fb.cell r' c' := by
  by_cases hr : r' = r
  · subst hr
    by_cases hc : c' = c
    · subst hc; simp [Display.cell, Display.flip]
    · have : c.val ≠ c'.val := fun e => hc (Fin.ext e.symm)
      simp [Display.cell, Display.flip, hc, this]
  · have : r.val ≠ r'.val := fun e => hr (Fin.ext e.symm)
    simp [Display.cell, Display.flip, hr, this]

/-- One 1 bit: its cell is toggled, and the collision is kept or found there. -/
theorem plot_cell (r c : Nat) (k : Display × Bool) (r' : Fin 32) (c' : Fin 64) : (plot r c k).1.cell r' c' =
    if r' = wrapRow r ∧ c' = wrapCol c then !k.1.cell r' c' else k.1.cell r' c' := Display.cell_flip _ _ _ _ _

@[simp] theorem plot_hit (r c : Nat) (k : Display × Bool) :
    (plot r c k).2 = (k.2 || k.1.cell (wrapRow r) (wrapCol c)) := rfl

/-- A row without a 1 bit draws nothing. -/
theorem drawRow_zero (x0 r : Nat) (k : Display × Bool) : drawRow x0 r 0 k = k := by
  simp [drawRow]

@[simp] theorem drawRows_nil (x0 r : Nat) (k : Display × Bool) : drawRows x0 r [] k = k := rfl

@[simp] theorem drawRows_cons (x0 r : Nat) (row : Byte) (rows : List Byte) (k : Display × Bool) :
    drawRows x0 r (row :: rows) k = drawRows x0 (r + 1) rows (drawRow x0 r row k) := rfl

/-! ## A draw, as the list of the cells its 1 bits land on -/

/-- `plot` on a cell already wrapped. -/
def plotCell (k : Display × Bool) (p : Fin 32 × Fin 64) : Display × Bool := (k.1.flip p.1 p.2, k.2 || k.1.cell p.1 p.2)

/-- The cells the 1 bits of one sprite row land on, leftmost first. -/
def rowCells (x0 r : Nat) (row : Byte) : List (Fin 32 × Fin 64) :=
  ((List.range 8).filter fun c => row.getLsbD (7 - c)).map fun c => (wrapRow r, wrapCol (x0 + c))

/-- The cells the 1 bits of a sprite land on, top row first. -/
def spriteCells (x0 : Nat) : Nat → List Byte → List (Fin 32 × Fin 64)
  | _, [] => []
  | r, row :: rows => rowCells x0 r row ++ spriteCells x0 (r + 1) rows

theorem drawRow_eq_foldl (x0 r : Nat) (row : Byte) (k : Display × Bool) :
    drawRow x0 r row k = (rowCells x0 r row).foldl plotCell k := by
  rw [drawRow, rowCells, List.foldl_map, List.foldl_filter]; rfl

theorem drawRows_eq_foldl (x0 r : Nat) (rows : List Byte) (k : Display × Bool) :
    drawRows x0 r rows k = (spriteCells x0 r rows).foldl plotCell k := by
  induction rows generalizing r k with
  | nil => rfl
  | cons row rows ih => rw [drawRows_cons, ih, spriteCells, List.foldl_append, drawRow_eq_foldl]

/-- Toggling distinct cells toggles exactly those, and finds a collision if one of them was on at the start. -/
theorem foldl_plotCell (L : List (Fin 32 × Fin 64)) (h : L.Nodup) (k : Display × Bool) :
    (∀ r c, (L.foldl plotCell k).1.cell r c = if (r, c) ∈ L then !k.1.cell r c else k.1.cell r c) ∧
    (L.foldl plotCell k).2 = (k.2 || L.any fun p => k.1.cell p.1 p.2) := by
  induction L generalizing k with
  | nil => simp
  | cons p L ih =>
    obtain ⟨hp, hL⟩ := List.nodup_cons.1 h
    obtain ⟨h1, h2⟩ := ih hL (plotCell k p)
    have off : ∀ q ∈ L, (k.1.flip p.1 p.2).cell q.1 q.2 = k.1.cell q.1 q.2 := fun q hq => by
      rw [Display.cell_flip, if_neg]
      rintro ⟨e1, e2⟩
      exact hp (by rwa [show p = q from Prod.ext e1.symm e2.symm])
    rw [List.foldl_cons]
    refine ⟨fun r c => ?_, ?_⟩
    · rw [h1 r c]
      simp only [plotCell, Display.cell_flip, List.mem_cons]
      by_cases hq : (r, c) = p
      · subst hq; simp [hp]
      · have : ¬ (r = p.1 ∧ c = p.2) := fun e => hq (Prod.ext e.1 e.2)
        simp [hq, this]
    · have : (L.any fun q => (k.1.flip p.1 p.2).cell q.1 q.2) = L.any fun q => k.1.cell q.1 q.2 := by
        rw [Bool.eq_iff_iff, List.any_eq_true, List.any_eq_true]
        exact exists_congr fun q => and_congr_right fun hq => by rw [off q hq]
      rw [h2]
      simp only [plotCell, List.any_cons, Bool.or_assoc, this]

theorem mem_rowCells {x0 r : Nat} {row : Byte} {R : Fin 32} {C : Fin 64} : (R, C) ∈ rowCells x0 r row ↔
    ∃ c < 8, row.getLsbD (7 - c) = true ∧ R = wrapRow r ∧ C = wrapCol (x0 + c) := by
  simp only [rowCells, List.mem_map, List.mem_filter, List.mem_range, Prod.mk.injEq]
  constructor
  · rintro ⟨a, ⟨h1, h2⟩, h3, h4⟩; exact ⟨a, h1, h2, h3.symm, h4.symm⟩
  · rintro ⟨a, h1, h2, h3, h4⟩; exact ⟨a, ⟨h1, h2⟩, h3.symm, h4.symm⟩

/-- A cell is among those a sprite lands on if some 1 bit of some row, wrapped, is there. -/
theorem mem_spriteCells {x0 r : Nat} {rows : List Byte} {R : Fin 32} {C : Fin 64} : (R, C) ∈ spriteCells x0 r rows ↔
    ∃ j row, rows[j]? = some row ∧ ∃ c < 8, row.getLsbD (7 - c) = true ∧ R = wrapRow (r + j) ∧ C = wrapCol (x0 + c) := by
  induction rows generalizing r with
  | nil => simp [spriteCells]
  | cons row rows ih =>
    rw [spriteCells, List.mem_append, ih, mem_rowCells]
    constructor
    · rintro (h | ⟨j, row', h1, h2⟩)
      · exact ⟨0, row, rfl, h⟩
      · exact ⟨j + 1, row', h1, by rwa [show r + (j + 1) = r + 1 + j by omega]⟩
    · rintro ⟨j, row', h1, h2⟩
      cases j with
      | zero => left; simp at h1; subst h1; exact h2
      | succ j => right; exact ⟨j, row', by simpa using h1, by rwa [show r + 1 + j = r + (j + 1) by omega]⟩

theorem nodup_rowCells (x0 r : Nat) (row : Byte) : (rowCells x0 r row).Nodup := by
  apply List.Nodup.map_on _ (List.Nodup.filter _ List.nodup_range)
  intro a ha b hb e
  simp only [List.mem_filter, List.mem_range] at ha hb
  have := congrArg (fun p => (Prod.snd p).val) e
  simp only [wrapCol] at this
  omega

/-- A sprite of at most 32 rows never lands twice on a cell. -/
theorem nodup_spriteCells (x0 r : Nat) (rows : List Byte) (h : rows.length ≤ 32) : (spriteCells x0 r rows).Nodup := by
  induction rows generalizing r with
  | nil => simp [spriteCells]
  | cons row rows ih =>
    simp only [List.length_cons] at h
    rw [spriteCells, List.nodup_append]
    refine ⟨nodup_rowCells .., ih _ (by omega), ?_⟩
    rintro ⟨R, C⟩ h1 ⟨R', C'⟩ h2 e
    rw [mem_rowCells] at h1
    rw [mem_spriteCells] at h2
    obtain ⟨c, _, _, h3, _⟩ := h1
    obtain ⟨j, row', hj, c', _, _, h4, _⟩ := h2
    obtain ⟨hjl, _⟩ := List.getElem?_eq_some_iff.1 hj
    have : (wrapRow r).val = (wrapRow (r + 1 + j)).val := by
      rw [← h3, ← h4]; exact congrArg (fun p => (Prod.fst p).val) e
    simp only [wrapRow] at this
    omega

/-- All a draw of at most 32 rows does: it toggles the sprite's cells, and the collision is whether one of them was on. -/
theorem draw_spec (x0 y0 : Nat) (rows : List Byte) (fb : Display) (h : rows.length ≤ 32) :
    (∀ r c, (draw x0 y0 rows fb).1.cell r c = if (r, c) ∈ spriteCells x0 y0 rows then !fb.cell r c else fb.cell r c) ∧
    (draw x0 y0 rows fb).2 = (spriteCells x0 y0 rows).any fun p => fb.cell p.1 p.2 := by
  obtain ⟨h1, h2⟩ := foldl_plotCell _ (nodup_spriteCells x0 y0 rows h) (fb, false)
  rw [draw, drawRows_eq_foldl]
  exact ⟨h1, by rw [h2, Bool.false_or]⟩

end Sys2Proof.Machine
end

