-- ==== Sys2Proof/Laws/PerInstr.lean ====
section
/-! SUPPORT. Per instruction: the encoder follows the opcode map (30_encoding.md R54). -/

namespace Sys2Proof.Laws.EncodedRow

/-- The instruction's word is selected by the row of the opcode map with its mnemonic. -/
def Statement (i : Instr) : Prop := ∃ r ∈ opcodeMap, r.mnemonic = i.mnemonic ∧ r.selects (encode i)

/-- The mask 0xF000 keeps the first nibble. -/
theorem and_top (w : Word) : w &&& 0xF000#16 = encNNN (fieldD1 w) 0 := by
  have h : w &&& 0xF000#16 = (w >>> 12) <<< 12 := by
    apply BitVec.eq_of_getLsbD_eq
    intro i hi
    interval_cases i <;> simp
  have := w.isLt
  apply BitVec.eq_of_toNat_eq
  rw [h, toNat_encNNN, toNat_fieldD1, BitVec.toNat_shiftLeft, BitVec.toNat_ushiftRight, Nat.shiftLeft_eq,
    Nat.shiftRight_eq_div_pow, show (0 : BitVec 12).toNat = 0 from rfl]
  omega

/-- A row with mask 0xF000 selects a word by its first nibble. -/
theorem of_top {i : Instr} (r : OpRow) (hr : r ∈ opcodeMap) (hm : r.mnemonic = i.mnemonic) (hmask : r.mask = 0xF000)
    (hp : encNNN (fieldD1 (encode i)) 0 = r.pattern) : Statement i :=
  ⟨r, hr, hm, by rw [OpRow.selects, hmask, ← hp]; exact and_top _⟩

theorem cls : Statement .cls :=
  ⟨⟨"CLS", 0xFFFF, 0x00E0⟩, by decide, rfl, by decide⟩

theorem ret : Statement .ret :=
  ⟨⟨"RET", 0xFFFF, 0x00EE⟩, by decide, rfl, by decide⟩

theorem jp (nnn : BitVec 12) : Statement (.jp nnn) :=
  of_top ⟨"JP", 0xF000, 0x1000⟩ (by decide) rfl rfl (by rw [encode, fieldD1_encNNN]; rfl)

theorem call (nnn : BitVec 12) : Statement (.call nnn) :=
  of_top ⟨"CALL", 0xF000, 0x2000⟩ (by decide) rfl rfl (by rw [encode, fieldD1_encNNN]; rfl)

theorem seImm (x : Reg) (nn : Byte) : Statement (.seImm x nn) :=
  of_top ⟨"SE_IMM", 0xF000, 0x3000⟩ (by decide) rfl rfl (by rw [encode, fieldD1_encXNN]; rfl)

theorem sneImm (x : Reg) (nn : Byte) : Statement (.sneImm x nn) :=
  of_top ⟨"SNE_IMM", 0xF000, 0x4000⟩ (by decide) rfl rfl (by rw [encode, fieldD1_encXNN]; rfl)

theorem seReg (x y : Reg) : Statement (.seReg x y) :=
  ⟨⟨"SE_REG", 0xF00F, 0x5000⟩, by decide, rfl, by revert x y; decide⟩

theorem ldImm (x : Reg) (nn : Byte) : Statement (.ldImm x nn) :=
  of_top ⟨"LD_IMM", 0xF000, 0x6000⟩ (by decide) rfl rfl (by rw [encode, fieldD1_encXNN]; rfl)

theorem addImm (x : Reg) (nn : Byte) : Statement (.addImm x nn) :=
  of_top ⟨"ADD_IMM", 0xF000, 0x7000⟩ (by decide) rfl rfl (by rw [encode, fieldD1_encXNN]; rfl)

theorem ldReg (x y : Reg) : Statement (.ldReg x y) :=
  ⟨⟨"LD_REG", 0xF00F, 0x8000⟩, by decide, rfl, by revert x y; decide⟩

theorem orReg (x y : Reg) : Statement (.orReg x y) :=
  ⟨⟨"OR", 0xF00F, 0x8001⟩, by decide, rfl, by revert x y; decide⟩

theorem andReg (x y : Reg) : Statement (.andReg x y) :=
  ⟨⟨"AND", 0xF00F, 0x8002⟩, by decide, rfl, by revert x y; decide⟩

theorem xorReg (x y : Reg) : Statement (.xorReg x y) :=
  ⟨⟨"XOR", 0xF00F, 0x8003⟩, by decide, rfl, by revert x y; decide⟩

theorem addReg (x y : Reg) : Statement (.addReg x y) :=
  ⟨⟨"ADD_REG", 0xF00F, 0x8004⟩, by decide, rfl, by revert x y; decide⟩

theorem sub (x y : Reg) : Statement (.sub x y) :=
  ⟨⟨"SUB", 0xF00F, 0x8005⟩, by decide, rfl, by revert x y; decide⟩

theorem shr (x y : Reg) : Statement (.shr x y) :=
  ⟨⟨"SHR", 0xF00F, 0x8006⟩, by decide, rfl, by revert x y; decide⟩

theorem subn (x y : Reg) : Statement (.subn x y) :=
  ⟨⟨"SUBN", 0xF00F, 0x8007⟩, by decide, rfl, by revert x y; decide⟩

theorem shl (x y : Reg) : Statement (.shl x y) :=
  ⟨⟨"SHL", 0xF00F, 0x800E⟩, by decide, rfl, by revert x y; decide⟩

theorem sneReg (x y : Reg) : Statement (.sneReg x y) :=
  ⟨⟨"SNE_REG", 0xF00F, 0x9000⟩, by decide, rfl, by revert x y; decide⟩

theorem ldI (nnn : BitVec 12) : Statement (.ldI nnn) :=
  of_top ⟨"LD_I", 0xF000, 0xA000⟩ (by decide) rfl rfl (by rw [encode, fieldD1_encNNN]; rfl)

theorem jpV0 (nnn : BitVec 12) : Statement (.jpV0 nnn) :=
  of_top ⟨"JP_V0", 0xF000, 0xB000⟩ (by decide) rfl rfl (by rw [encode, fieldD1_encNNN]; rfl)

theorem rnd (x : Reg) (nn : Byte) : Statement (.rnd x nn) :=
  of_top ⟨"RND", 0xF000, 0xC000⟩ (by decide) rfl rfl (by rw [encode, fieldD1_encXNN]; rfl)

theorem drw (x y : Reg) (n : BitVec 4) : Statement (.drw x y n) :=
  of_top ⟨"DRW", 0xF000, 0xD000⟩ (by decide) rfl rfl (by rw [encode, fieldD1_encXYN]; rfl)

theorem skp (x : Reg) : Statement (.skp x) :=
  ⟨⟨"SKP", 0xF0FF, 0xE09E⟩, by decide, rfl, by revert x; decide⟩

theorem sknp (x : Reg) : Statement (.sknp x) :=
  ⟨⟨"SKNP", 0xF0FF, 0xE0A1⟩, by decide, rfl, by revert x; decide⟩

theorem ldVxDt (x : Reg) : Statement (.ldVxDt x) :=
  ⟨⟨"LD_VX_DT", 0xF0FF, 0xF007⟩, by decide, rfl, by revert x; decide⟩

theorem ldVxK (x : Reg) : Statement (.ldVxK x) :=
  ⟨⟨"LD_VX_K", 0xF0FF, 0xF00A⟩, by decide, rfl, by revert x; decide⟩

theorem ldDtVx (x : Reg) : Statement (.ldDtVx x) :=
  ⟨⟨"LD_DT_VX", 0xF0FF, 0xF015⟩, by decide, rfl, by revert x; decide⟩

theorem ldStVx (x : Reg) : Statement (.ldStVx x) :=
  ⟨⟨"LD_ST_VX", 0xF0FF, 0xF018⟩, by decide, rfl, by revert x; decide⟩

theorem addIVx (x : Reg) : Statement (.addIVx x) :=
  ⟨⟨"ADD_I_VX", 0xF0FF, 0xF01E⟩, by decide, rfl, by revert x; decide⟩

theorem ldFVx (x : Reg) : Statement (.ldFVx x) :=
  ⟨⟨"LD_F_VX", 0xF0FF, 0xF029⟩, by decide, rfl, by revert x; decide⟩

theorem ldBVx (x : Reg) : Statement (.ldBVx x) :=
  ⟨⟨"LD_B_VX", 0xF0FF, 0xF033⟩, by decide, rfl, by revert x; decide⟩

theorem ldMemVx (x : Reg) : Statement (.ldMemVx x) :=
  ⟨⟨"LD_MEM_VX", 0xF0FF, 0xF055⟩, by decide, rfl, by revert x; decide⟩

theorem ldVxMem (x : Reg) : Statement (.ldVxMem x) :=
  ⟨⟨"LD_VX_MEM", 0xF0FF, 0xF065⟩, by decide, rfl, by revert x; decide⟩

end Sys2Proof.Laws.EncodedRow
end

