-- ==== Sys2Proof/Tests/Slice0.lean ====
section
/-! SUPPORT. The model's own tests: expected results from 95_test_vectors.md (the vector is named) or worked from the
rules by hand, each one step on a small state; and a witness for the hypotheses of every statement that has any. -/

namespace Sys2Proof.Tests
open Sys2Proof.Machine

/-! ## Helpers -/

/-- The next state of an answer, if it is one. -/
def nextOf (a : Answer) : Option State :=
  match a with
  | .next t => some t
  | _ => none

/-- Whether an answer is this refusal. -/
def refusedWith (r : Refusal) (a : Answer) : Bool :=
  match a with
  | .refused q => decide (q = r)
  | _ => false

/-- Whether an answer is this fault. -/
def faultedWith (f : Fault) (a : Answer) : Bool :=
  match a with
  | .fault g => decide (g = f)
  | _ => false

/-- s with V[x] = b, V[y] = c. -/
def twoRegs (x : Reg) (b : Byte) (y : Reg) (c : Byte) : State := (State.reset.setV x b).setV y c

/-- One cycle of s with the word w at pc. -/
def cycleOf (s : State) (w : Nat) : Option State := nextOf (step (s.withFetchWord 16 w))

/-- The registers x and y after one cycle of s with the word w at pc. -/
def regsAfter (s : State) (w : Nat) (x y : Reg) : Option (Byte × Byte) := (cycleOf s w).map fun t => (t.getV x, t.getV y)

/-- pc after one cycle. -/
def pcAfter (s : State) (w : Nat) : Option Word := (cycleOf s w).map (·.pc)

/-- The run state after one cycle. -/
def runAfter (s : State) (w : Nat) : Option RunState := (cycleOf s w).map (·.run)

/-- The bytes from a on after one cycle. -/
def bytesAfter (s : State) (w a n : Nat) : Option (List Byte) := (cycleOf s w).map fun t => t.mem.readBytes t.font a n

/-- The cells that are on after one cycle, as (row, column), and VF. -/
def cellsAfter (s : State) (w : Nat) (cells : List (Fin 32 × Fin 64)) : Option (List Bool × Byte) :=
  (cycleOf s w).map fun t => (cells.map fun p => t.fb.cell p.1 p.2, t.getV 15)

/-! ## Decoding: the words of 30_encoding.md written out (nibbles d1 d2 d3 d4) -/

theorem test_decode_cls : decodeWord 0b0000000011100000 = some .cls := by decide
theorem test_decode_ret : decodeWord 0b0000000011101110 = some .ret := by decide
theorem test_decode_jp : decodeWord 0b0001001000110100 = some (.jp 0x234) := by decide
theorem test_decode_call : decodeWord 0b0010001100000000 = some (.call 0x300) := by decide
theorem test_decode_seImm : decodeWord 0b0011001100010010 = some (.seImm 3 0x12) := by decide
theorem test_decode_sneImm : decodeWord 0b0100001100010010 = some (.sneImm 3 0x12) := by decide
theorem test_decode_seReg : decodeWord 0b0101000100100000 = some (.seReg 1 2) := by decide
theorem test_decode_ldImm : decodeWord 0b0110101001000010 = some (.ldImm 10 0x42) := by decide
theorem test_decode_addImm : decodeWord 0b0111001000000011 = some (.addImm 2 3) := by decide
theorem test_decode_ldReg : decodeWord 0b1000010001010000 = some (.ldReg 4 5) := by decide
theorem test_decode_orReg : decodeWord 0b1000000100100001 = some (.orReg 1 2) := by decide
theorem test_decode_andReg : decodeWord 0b1000000100100010 = some (.andReg 1 2) := by decide
theorem test_decode_xorReg : decodeWord 0b1000000100100011 = some (.xorReg 1 2) := by decide
theorem test_decode_addReg : decodeWord 0b1000000100100100 = some (.addReg 1 2) := by decide
theorem test_decode_sub : decodeWord 0b1000000100100101 = some (.sub 1 2) := by decide
theorem test_decode_shr : decodeWord 0b1000001101010110 = some (.shr 3 5) := by decide
theorem test_decode_subn : decodeWord 0b1000000100100111 = some (.subn 1 2) := by decide
theorem test_decode_shl : decodeWord 0b1000001100001110 = some (.shl 3 0) := by decide
theorem test_decode_sneReg : decodeWord 0b1001000100100000 = some (.sneReg 1 2) := by decide
theorem test_decode_ldI : decodeWord 0b1010001011110000 = some (.ldI 0x2F0) := by decide
theorem test_decode_jpV0 : decodeWord 0b1011010100000000 = some (.jpV0 0x500) := by decide
theorem test_decode_rnd : decodeWord 0b1100000000001111 = some (.rnd 0 0x0F) := by decide
theorem test_decode_drw : decodeWord 0b1101000000010101 = some (.drw 0 1 5) := by decide
theorem test_decode_skp : decodeWord 0b1110000110011110 = some (.skp 1) := by decide
theorem test_decode_sknp : decodeWord 0b1110000110100001 = some (.sknp 1) := by decide
theorem test_decode_ldVxDt : decodeWord 0b1111001100000111 = some (.ldVxDt 3) := by decide
theorem test_decode_ldVxK : decodeWord 0b1111001000001010 = some (.ldVxK 2) := by decide
theorem test_decode_ldDtVx : decodeWord 0b1111000000010101 = some (.ldDtVx 0) := by decide
theorem test_decode_ldStVx : decodeWord 0b1111000100011000 = some (.ldStVx 1) := by decide
theorem test_decode_addIVx : decodeWord 0b1111000000011110 = some (.addIVx 0) := by decide
theorem test_decode_ldFVx : decodeWord 0b1111010000101001 = some (.ldFVx 4) := by decide
theorem test_decode_ldBVx : decodeWord 0b1111000000110011 = some (.ldBVx 0) := by decide
theorem test_decode_ldMemVx : decodeWord 0b1111001001010101 = some (.ldMemVx 2) := by decide
theorem test_decode_ldVxMem : decodeWord 0b1111001001100101 = some (.ldVxMem 2) := by decide
/-- Vector Y9 and the sets of R57. -/
theorem test_decode_unimplemented : [0x0123#16, 0x5121, 0x8128, 0x9121, 0xE1FF, 0xF1FF].map decodeWord =
    [none, none, none, none, none, none] := by decide
/-- High byte first (R39), the bytes after the word left alone (R53). -/
theorem test_decode_bytes : decode [0x12, 0x34, 0xAA] = .ok (.jp 0x234, [0xAA]) := by decide
theorem test_decode_truncated : decode [0x12] = .error .truncated := by decide
theorem test_decode_rejects_by_name : decode [0x51, 0x21] = .error (.unimplemented 0x5121) := by decide
theorem test_encode_drw : encode (.drw 0 1 5) = 0xD015 := by decide
theorem test_encodeBytes_call : encodeBytes (.call 0x300) = [0x23, 0x00] := by decide
theorem test_decodeTableWord : decodeTableWord 16 0xF265 = some (.ldVxMem 2) := by decide

/-! ## Well-formedness: an ill-formed host operation for each check -/

theorem smoke_load_too_long : HostOp.wellFormed (.load (List.replicate 3585 0)) = false := by
  rw [HostOp.wellFormed, programFits, List.length_replicate]; decide
theorem smoke_load_longest : HostOp.wellFormed (.load (List.replicate 3584 0)) = true := by
  rw [HostOp.wellFormed, programFits, List.length_replicate]; decide
theorem smoke_setKey_16 : HostOp.wellFormed (.setKey 16 true) = false := by decide
theorem smoke_setKey_15 : HostOp.wellFormed (.setKey 15 true) = true := by decide
/-- The operations the block turns away are the ill-formed ones (vectors H3, K9). -/
theorem smoke_load_refused (s : State) : refusedWith .loadOverflow (applyOp (.load (List.replicate 3585 0)) s) = true := by
  have h : programFits (List.replicate 3585 0) = false := by rw [programFits, List.length_replicate]; decide
  rw [applyOp, State.hostLoad, h]; rfl
theorem smoke_setKey_refused : refusedWith .keyIndexInvalid (applyOp (.setKey 16 true) State.reset) = true := by decide

/-! ## The cycle -/

/-- Vector Y1. -/
theorem test_fetch_big_endian : pcAfter State.reset 0x1234 = some 0x234 := by decide
/-- Vector Y3. -/
theorem test_unimplemented : runAfter State.reset 0x0123 =
    some (.halted ⟨.unimplementedOpcode, 0x200, some 0x0123, 0⟩) := by decide
/-- Vector Y4. -/
theorem test_halted_again : faultedWith (.halted ⟨.unimplementedOpcode, 0x200, some 0x0123, 0⟩)
    (step { State.reset with run := .halted ⟨.unimplementedOpcode, 0x200, some 0x0123, 0⟩ }) = true := by decide
/-- Vector Y5. -/
theorem test_fetch_out_of_range : (nextOf (step { State.reset with pc := 0xFFF })).map (·.run) =
    some (.halted ⟨.fetchOutOfRange, 0xFFF, none, 0xFFF⟩) := by decide
/-- Vector Y6. -/
theorem test_skip_past_memory : pcAfter { State.reset with pc := 0xFFE } 0x3000 = some 0x1002 := by decide
/-- Vector Y8. -/
theorem test_fault_does_not_tick : (cycleOf { State.reset with dt := 5 } 0x0000).map (·.dt) = some 5 := by decide

/-! ## Control transfer -/

/-- Vector B2. -/
theorem test_jp_1FFF : pcAfter State.reset 0x1FFF = some 0xFFF := by decide
/-- Vector B3. -/
theorem test_call : (cycleOf { State.reset with pc := 0x204 } 0x2300).map (fun t => (t.stack[0], t.sp, t.pc)) =
    some (0x206, 1, 0x300) := by decide
/-- Vector B4. -/
theorem test_call_overflow : (cycleOf { State.reset with pc := 0x204, sp := 16 } 0x2300).map (fun t => (t.run, t.sp, t.pc)) =
    some (.halted ⟨.stackOverflow, 0x204, some 0x2300, 0⟩, 16, 0x204) := by decide
/-- Vector B5: the slot keeps its value. -/
theorem test_ret : (cycleOf { State.reset with pc := 0x310, sp := 1, stack := State.reset.stack.set 0 0x206 } 0x00EE).map
    (fun t => (t.pc, t.sp, t.stack[0])) = some (0x206, 0, 0x206) := by decide
/-- Vector B6. -/
theorem test_ret_underflow : (cycleOf { State.reset with pc := 0x310 } 0x00EE).map (fun t => (t.run, t.pc)) =
    some (.halted ⟨.stackUnderflow, 0x310, some 0x00EE, 0⟩, 0x310) := by decide
/-- Vectors B7, B8. -/
theorem test_seImm : [pcAfter (twoRegs 3 0x12 0 0) 0x3312, pcAfter (twoRegs 3 0x13 0 0) 0x3312] = [some 0x204, some 0x202] := by decide
/-- Vectors B9, B10. -/
theorem test_sneImm : [pcAfter (twoRegs 3 0x12 0 0) 0x4312, pcAfter (twoRegs 3 0x13 0 0) 0x4312] = [some 0x202, some 0x204] := by decide
/-- Vectors B12, B13. -/
theorem test_seReg : [pcAfter (twoRegs 1 7 2 7) 0x5120, pcAfter (twoRegs 1 7 2 8) 0x5120] = [some 0x204, some 0x202] := by decide
/-- Vectors B15, B16. -/
theorem test_sneReg : [pcAfter (twoRegs 1 7 2 8) 0x9120, pcAfter (twoRegs 1 7 2 8) 0x9110] = [some 0x204, some 0x202] := by decide
/-- Vectors B18, B19. -/
theorem test_jpV0 : [pcAfter (twoRegs 0 0xFF 1 0) 0xBFFF, pcAfter (twoRegs 0 0x10 5 0x99) 0xB500] = [some 0x10FE, some 0x510] := by decide

/-! ## Loads, arithmetic, logic, shifts, random -/

/-- Vector A1. -/
theorem test_ldImm : regsAfter State.reset 0x6A42 10 15 = some (0x42, 0) := by decide
/-- Vector A2: no carry. -/
theorem test_addImm : regsAfter (twoRegs 2 0xFE 15 0x77) 0x7203 2 15 = some (0x01, 0x77) := by decide
/-- Vector A4. -/
theorem test_ldReg : regsAfter (twoRegs 5 9 4 1) 0x8450 4 5 = some (9, 9) := by decide
/-- Vector A5. -/
theorem test_or : regsAfter (twoRegs 1 0x0F 2 0x30) 0x8121 1 15 = some (0x3F, 0) := by decide
/-- Vector A6. -/
theorem test_and : regsAfter (twoRegs 1 0x3C 2 0x0F) 0x8122 1 15 = some (0x0C, 0) := by decide
/-- Vector A7. -/
theorem test_xor : regsAfter (twoRegs 1 0x3C 2 0x0F) 0x8123 1 15 = some (0x33, 0) := by decide
/-- Vector A9 (source W2). -/
theorem test_add : regsAfter (twoRegs 1 250 2 10) 0x8124 1 15 = some (4, 1) := by decide
/-- Vector A12: the sum wins over the carry. -/
theorem test_add_into_vf : regsAfter (twoRegs 15 0x10 1 0xF5) 0x8F14 15 1 = some (0x05, 0xF5) := by decide
/-- Vector A14 (source W3). -/
theorem test_sub : regsAfter (twoRegs 1 5 2 10) 0x8125 1 15 = some (251, 0) := by decide
/-- Vector A15: strict. -/
theorem test_sub_equal : regsAfter (twoRegs 1 7 2 7) 0x8125 1 15 = some (0, 0) := by decide
/-- Vector A19. -/
theorem test_subn : regsAfter (twoRegs 1 10 2 5) 0x8127 1 15 = some (251, 0) := by decide
/-- Vector A22. -/
theorem test_subn_into_vf : regsAfter (twoRegs 15 5 1 10) 0x8F17 15 1 = some (5, 10) := by decide
/-- Vector A24: y is ignored. -/
theorem test_shr : regsAfter (twoRegs 3 0x05 5 0xFF) 0x8356 3 15 = some (0x02, 1) := by decide
/-- Vector A27. -/
theorem test_shr_of_vf : regsAfter (twoRegs 15 0x03 1 0) 0x8F06 15 1 = some (0x01, 0) := by decide
/-- Vector A28. -/
theorem test_shl : regsAfter (twoRegs 3 0x81 5 0) 0x830E 3 15 = some (0x02, 1) := by decide
/-- Vector A33: nn = 0 gives 0 whatever the draw. -/
theorem test_rnd_zero_mask (s : State) : (nextOf (exec (.rnd 0 0) s)).map (fun t => (t.getV 0, t.draws)) = some (0, s.draws + 1) := by
  simp [exec, execRnd, nextOf, State.drawRand]

/-! ## Index register and memory -/

/-- Vector M1. -/
theorem test_ldI : (cycleOf State.reset 0xA2F0).map (·.i) = some 0x2F0 := by decide
/-- Vector M3. -/
theorem test_addI_wraps : (cycleOf { twoRegs 0 2 1 0 with i := 0xFFFF } 0xF01E).map (·.i) = some 0x0001 := by decide
/-- Vectors M4, M6: the whole Vx. -/
theorem test_ldF : [(cycleOf (twoRegs 4 0x0A 0 0) 0xF429).map (·.i), (cycleOf (twoRegs 4 0xFF 0 0) 0xF429).map (·.i)] =
    [some 0x082, some 0x54B] := by decide
/-- Vector M7 (source W7). -/
theorem test_ldB : bytesAfter { twoRegs 0 156 1 0 with i := 0x300 } 0xF033 0x300 4 = some [1, 5, 6, 0] := by decide
/-- Vector M9. -/
theorem test_ldB_out_of_range : runAfter { twoRegs 0 200 1 0 with i := 0xFFE } 0xF033 =
    some (.halted ⟨.memoryOutOfRange, 0x200, some 0xF033, 0x1000⟩) := by decide
/-- Vector M11. -/
theorem test_ldMem : bytesAfter { (twoRegs 0 1 1 2).setV 2 3 with i := 0x300 } 0xF255 0x2FF 5 = some [0, 1, 2, 3, 0] := by decide
/-- Vector M14. -/
theorem test_ldMem_out_of_range : runAfter { State.reset with i := 0x1001 } 0xF155 =
    some (.halted ⟨.memoryOutOfRange, 0x200, some 0xF155, 0x1001⟩) := by decide
/-- Vector M15, from the font: glyph 0 is F0 90 90. -/
theorem test_ldVxMem : (cycleOf { (State.reset.setV 2 9).setV 3 7 with i := 0x050 } 0xF265).map
    (fun t => [t.getV 0, t.getV 1, t.getV 2, t.getV 3]) = some [0xF0, 0x90, 0x90, 7] := by decide
/-- Vector M17: the last sixteen bytes are in range. -/
theorem test_ldVxMem_edge : runAfter { State.reset with i := 0xFF0 } 0xFF65 = some .running := by decide

/-! ## Display -/

/-- Vector D1. -/
theorem test_cls : cellsAfter { twoRegs 15 0x77 0 0 with fb := State.reset.fb.flip 3 4 } 0x00E0 [(3, 4), (0, 0)] =
    some ([false, false], 0x77) := by decide
/-- Vector D6: each pixel wraps on its own; here with the default glyph 0 row F0 at column 62, row 31, two rows. -/
theorem test_drw_wraps : cellsAfter { twoRegs 0 62 1 31 with i := 0x050 } 0xD012
    [(31, 62), (31, 63), (31, 0), (31, 1), (31, 2), (0, 62), (0, 1), (0, 0)] =
    some ([true, true, true, true, false, true, true, false], 0) := by decide
/-- Vector D8: a collision. -/
theorem test_drw_collides : cellsAfter { State.reset with i := 0x050, fb := State.reset.fb.flip 0 0 } 0xD011 [(0, 0), (0, 1)] =
    some ([false, true], 1) := by decide
/-- Log entry 17: a sprite whose only hit cells were on before the first draw gives VF = 1, then VF = 0, by R102. -/
theorem test_drw_twice_over_a_lit_cell :
    let s : State := { State.reset with i := 0x300, mem := [(0x300, 0x80)], fb := State.reset.fb.flip 0 0 }
    ((nextOf (exec (.drw 0 0 1) s)).map (·.getV 15), ((nextOf (exec (.drw 0 0 1) s)).bind fun t =>
      nextOf (exec (.drw 0 0 1) (t.setV 15 0))).map (·.getV 15)) = (some 1, some 0) := by decide

/-! ## Keypad -/

/-- Vectors K1, K2. -/
theorem test_skp : [pcAfter { twoRegs 1 5 0 0 with key := State.reset.key.set 5 true } 0xE19E, pcAfter (twoRegs 1 5 0 0) 0xE19E] =
    [some 0x204, some 0x202] := by decide
/-- Vectors K3, K4. -/
theorem test_sknp : [pcAfter (twoRegs 1 5 0 0) 0xE1A1, pcAfter { twoRegs 1 5 0 0 with key := State.reset.key.set 5 true } 0xE1A1] =
    [some 0x204, some 0x202] := by decide
/-- Vector K5. -/
theorem test_skp_out_of_range : runAfter (twoRegs 1 0x10 0 0) 0xE19E =
    some (.halted ⟨.keyIndexOutOfRange, 0x200, some 0xE19E, 0x10⟩) := by decide
/-- Vector K6. -/
theorem test_wait_takes_lowest : (cycleOf { State.reset with key := (State.reset.key.set 9 true).set 3 true } 0xF20A).map
    (fun t => (t.getV 2, t.pc)) = some (3, 0x202) := by decide
/-- Vector K7, its first cycle. -/
theorem test_wait_repeats : (cycleOf { State.reset with dt := 3 } 0xF00A).map (fun t => (t.pc, t.dt)) = some (0x200, 2) := by decide

/-! ## Timers -/

/-- Vector T1. -/
theorem test_ldVxDt : (cycleOf { State.reset with dt := 7 } 0xF307).map (fun t => (t.getV 3, t.dt)) = some (7, 6) := by decide
/-- Vectors T2, T3. -/
theorem test_ldDtVx : [(cycleOf (twoRegs 0 5 1 0) 0xF015).map (·.dt), (cycleOf { State.reset with dt := 9 } 0xF015).map (·.dt)] =
    [some 4, some 0] := by decide
/-- Vectors T4, T5. -/
theorem test_ldStVx : [(cycleOf (twoRegs 1 2 0 0) 0xF118).map (·.soundActive), (cycleOf (twoRegs 1 1 0 0) 0xF118).map (·.soundActive)] =
    [some true, some false] := by decide

/-! ## Host operations and memory -/

/-- Vector H4, with a byte that equals what reset left and so is not listed. -/
theorem test_load : (nextOf (applyOp (.load [0x12, 0x00]) State.reset)).map (fun t => (t.mem, t.pc)) = some ([(0x200, 0x12)], 0x200) := by decide
/-- The font's last byte, and the bytes around it (R37). -/
theorem test_font_bounds : [0x04F, 0x050, 0x09F, 0x0A0].map State.reset.readByte = [0, 0xF0, 0x80, 0] := by decide
theorem test_write_removes : Memory.write defaultFont [(0x300, 1)] 0x300 0 = [] := by decide

/-! ## Witnesses: states and operands that meet the hypotheses of each statement, each clause at its boundary -/

/-- The state made to run the word w runs what w decodes to. -/
theorem runsNext_of_decode (s : State) (w : Nat) (i : Instr) (h : decodeWord (tableWord 16 w) = some i) :
    RunsNext (s.withFetchWord 16 w) i :=
  have f := State.placeWord_fetch s (tableWord 16 w)
  ⟨f.1, _, ⟨f.2.1, f.2.2.1, f.2.2.2.1⟩, h⟩

/-- A word stands at pc in the state made to run it. -/
theorem wordAtPc_placed (s : State) (w : Nat) : WordAtPc (s.withFetchWord 16 w) (tableWord 16 w) :=
  have f := State.placeWord_fetch s (tableWord 16 w)
  ⟨f.2.1, f.2.2.1, f.2.2.2.1⟩

/-- A Halted block. -/
def haltedState : State := { State.reset with run := .halted ⟨.stackUnderflow, 0x200, some 0x00EE, 0⟩ }

/-- Key 15 pressed and no other. -/
def key15 : State := { State.reset with key := State.reset.key.set 15 true }

/-- The byte 0x80 at 0x300, I there, cell (0, 0) off or on: one 1 bit of a one-row sprite, at the origin. -/
def dotState (lit : Bool) : State :=
  { State.reset with i := 0x300, mem := [(0x300, 0x80)], fb := if lit then State.reset.fb.flip 0 0 else State.reset.fb }

theorem witness_EncodeOfDecodeIsTheWord : decodeWord 0x1234 = some (.jp 0x234) := by decide
theorem witness_OpcodeMap : (opcodeMap.filter fun r => decide (r.selects 0x8AB4)).map (·.mnemonic) = ["ADD_REG"] := by decide
theorem witness_StepRunsTheDecodedInstruction : ∃ (s t : State) (op : Word) (i : Instr), s.run = .running ∧ WordAtPc s op ∧
    decodeWord op = some i ∧ exec i { s with pc := s.pc + 2 } = .next t :=
  ⟨State.reset.withFetchWord 16 0x6A42, _, 0x6A42, .ldImm 10 0x42, rfl, wordAtPc_placed _ _, by decide, rfl⟩
theorem witness_StepRuns_to_a_fault : ∃ (s t : State) (op : Word) (i : Instr), s.run = .running ∧ WordAtPc s op ∧
    decodeWord op = some i ∧ exec i { s with pc := s.pc + 2 } = .next t ∧ t.run ≠ .running :=
  ⟨State.reset.withFetchWord 16 0x00EE, _, 0x00EE, .ret, rfl, wordAtPc_placed _ _, by decide, rfl, by decide⟩
theorem witness_CycleStopsOnlyOnAHaltedBlock : State.reset.run = .running ∧ ∃ f, haltedState.run = .halted f := ⟨rfl, _, rfl⟩
theorem witness_FetchAboveMemoryFaults : ∃ s : State, s.run = .running ∧ s.pc.toNat = 0xFFF :=
  ⟨{ State.reset with pc := 0xFFF }, by decide⟩
theorem witness_UnimplementedWordFaults : ∃ (s : State) (op : Word), s.run = .running ∧ WordAtPc s op ∧ decodeWord op = none :=
  ⟨{ State.reset with pc := 0xFFE }.withFetchWord 16 0x5121, 0x5121, rfl, wordAtPc_placed _ _, by decide⟩
theorem witness_FaultingCycle_of_an_instruction : ∃ (s t : State) (f : FaultRecord), s.run = .running ∧ step s = .next t ∧
    t.run = .halted f ∧ WordAtPc s 0x00EE :=
  ⟨State.reset.withFetchWord 16 0x00EE, _, _, rfl, rfl, rfl, wordAtPc_placed _ 0x00EE⟩
theorem witness_FaultingCycle_of_a_fetch : ∃ (s t : State) (f : FaultRecord), s.run = .running ∧ step s = .next t ∧
    t.run = .halted f ∧ s.pc.toNat > 0xFFE :=
  ⟨{ State.reset with pc := 0xFFF }, _, _, rfl, rfl, rfl, by decide⟩
theorem witness_InstructionRaisesOnlyItsOwnFault : ∃ (s t : State) (i : Instr) (f : FaultRecord), RunsNext s i ∧
    step s = .next t ∧ t.run = .halted f :=
  ⟨(twoRegs 1 16 0 0).withFetchWord 16 0xE19E, _, .skp 1, _, runsNext_of_decode _ _ _ (by decide), rfl, rfl⟩
theorem witness_EveryCompletedCycle_completes : ∃ (s t : State) (x : Reg), RunsNext s (.ldDtVx x) ∧ step s = .next t ∧
    t.run = .running ∧ s.getV x = 255 ∧ s.st = 0 :=
  ⟨(twoRegs 0 255 1 0).withFetchWord 16 0xF015, _, 0, runsNext_of_decode _ _ _ (by decide), rfl, rfl, by decide⟩
theorem witness_EveryCompletedCycle_faults : ∃ (s t : State) (f : FaultRecord), step s = .next t ∧ t.run = .halted f ∧ s.dt = 5 :=
  ⟨{ State.reset with dt := 5 }, _, _, rfl, rfl, rfl⟩
theorem witness_EveryStepKeepsTheInvariant : ∃ s t : State, s.Inv ∧ step s = .next t :=
  ⟨State.reset, _, ⟨State.resetWith_mem_wf, by decide, by decide, by decide, fun f h => by cases h⟩, rfl⟩
theorem witness_Reachable_reset : Reachable State.reset := .reset _
theorem witness_Reachable_key : Reachable key15 := .op (.setKey 15 true) _ _ (.reset _) rfl
theorem witness_OnlyNewLeavesHalted_new : ∃ t f, haltedState.run = .halted f ∧ applyOp .new haltedState = .next t :=
  ⟨_, _, rfl, rfl⟩
theorem witness_OnlyNewLeavesHalted_load : ∃ t f, haltedState.run = .halted f ∧ applyOp (.load []) haltedState = .next t :=
  ⟨_, _, rfl, rfl⟩
/-- The last stored byte is at I + 2, so I + 3 is the lowest address above the stored ones. -/
theorem witness_OnlyStoresChangeMemory : ∃ (s t : State) (i : Instr) (a : Nat), RunsNext s i ∧ step s = .next t ∧
    ¬ (s.i.toNat ≤ a ∧ a < s.i.toNat + storedCount i) ∧ storedCount i = 3 ∧ a = s.i.toNat + 3 :=
  ⟨{ twoRegs 0 156 1 0 with i := 0x300 }.withFetchWord 16 0xF033, _, .ldBVx 0, 0x303,
    runsNext_of_decode _ _ _ (by decide), rfl, by decide⟩
theorem witness_OnlyCallAndReturn_other : ∃ (s t : State) (i : Instr), RunsNext s i ∧ step s = .next t ∧
    (¬ ∃ nnn, i = .call nnn) ∧ i ≠ .ret :=
  ⟨State.reset.withFetchWord 16 0x1234, _, .jp 0x234, runsNext_of_decode _ _ _ (by decide), rfl, by simp, by decide⟩
theorem witness_OnlyCallAndReturn_return : ∃ (s t : State), RunsNext s .ret ∧ step s = .next t ∧ t.sp ≠ s.sp :=
  ⟨{ State.reset with sp := 1 }.withFetchWord 16 0x00EE, _, runsNext_of_decode _ _ _ (by decide), rfl, by decide⟩
theorem witness_OnlyThreeInstructionsWriteI : ∃ (s t : State) (i : Instr), RunsNext s i ∧ step s = .next t ∧ t.i ≠ s.i :=
  ⟨State.reset.withFetchWord 16 0xA2F0, _, .ldI 0x2F0, runsNext_of_decode _ _ _ (by decide), rfl, by decide⟩
theorem witness_OnlyDrawAndClear : ∃ (s t : State) (i : Instr), RunsNext s i ∧ step s = .next t ∧ i ≠ .cls ∧
    ¬ ∃ x y n, i = .drw x y n :=
  ⟨key15.withFetchWord 16 0xF20A, _, .ldVxK 2, runsNext_of_decode _ _ _ (by decide), rfl, by decide, by simp⟩
theorem witness_WriteVF_destination : ∃ (s t : State) (i : Instr), RunsNext s i ∧ step s = .next t ∧ t.getV 15 ≠ s.getV 15 :=
  ⟨State.reset.withFetchWord 16 0x6F01, _, .ldImm 15 1, runsNext_of_decode _ _ _ (by decide), rfl, by decide⟩
theorem witness_WriteVF_flag : ∃ (s t : State), (1 : Reg) ≠ 15 ∧ exec (.addReg 1 2) s = .next t ∧ t.getV 15 = 1 :=
  ⟨twoRegs 1 250 2 10, _, by decide, rfl, by decide⟩
theorem witness_WriteVF_every_flag_form : ∀ i ∈ [Instr.addReg 1 2, .sub 1 2, .subn 1 2, .shr 1 2, .shl 1 2],
    (nextOf (exec i (twoRegs 1 250 2 10))).isSome = true := by decide

theorem witness_Call : ({ State.reset with sp := 15 } : State).sp.toNat < 16 ∧
    ({ State.reset with sp := 16 } : State).sp.toNat = 16 := by decide
theorem witness_Return : (0 < ({ State.reset with sp := 1 } : State).sp.toNat) ∧
    ({ State.reset with sp := 16 } : State).sp.toNat ≤ 16 ∧ State.reset.sp.toNat = 0 := by decide
theorem witness_CallThenReturn : ∃ (s : State) (nnn : BitVec 12), RunsNext s (.call nnn) ∧ s.sp.toNat = 15 ∧
    nnn.toNat = 0xFFE ∧ s.readByte nnn.toNat = 0x00 ∧ s.readByte (nnn.toNat + 1) = 0xEE :=
  ⟨{ State.reset with sp := 15, mem := [(0xFFF, 0xEE)] }.withFetchWord 16 0x2FFE, 0xFFE,
    runsNext_of_decode _ _ _ (by decide), by decide⟩
theorem witness_RegisterSkips : (1 : BitVec 4) ≠ 0 ∧ (15 : BitVec 4) ≠ 0 := by decide
/-- Both sides of x = 15, for the sums, differences and shifts. -/
theorem witness_flag_register : (14 : Reg) ≠ 15 ∧ (0 : Reg) ≠ 15 := by decide
theorem witness_DigitStore : ({ State.reset with i := 0xFFD } : State).i.toNat + 2 = 0xFFF ∧
    ({ State.reset with i := 0xFFE } : State).i.toNat + 2 > 0xFFF := by decide
theorem witness_RegisterStoreAndLoad : ({ State.reset with i := 0xFF0 } : State).i.toNat + (15 : Reg).val = 0xFFF ∧
    ({ State.reset with i := 0xFF1 } : State).i.toNat + (15 : Reg).val = 0x1000 ∧
    ({ State.reset with i := 0xFFF } : State).i.toNat + (0 : Reg).val = 0xFFF := by decide
theorem witness_StoredWordIsFetchedNext : ∃ (s : State) (x : Reg), RunsNext s (.ldMemVx x) ∧ x.val = 1 ∧ s.i = s.pc + 2 ∧
    s.i.toNat + x.val ≤ 0xFFF :=
  ⟨{ State.reset with i := 0x202 }.withFetchWord 16 0xF155, 1, runsNext_of_decode _ _ _ (by decide), by decide⟩

/-- No row; the last row at 0xFFF; the last row at 0x1000. -/
theorem witness_Draw_range : SpriteInRange { State.reset with i := 0xFFFF } 0 ∧ SpriteInRange { State.reset with i := 0xFF1 } 15 ∧
    ¬ SpriteInRange { State.reset with i := 0xFF2 } 15 := by decide
theorem hits_dot (lit : Bool) : SpriteHits (dotState lit) 0 0 1 0 0 := ⟨0, 0, by cases lit <;> decide⟩
/-- The only cell the dot hits is (0, 0). -/
theorem hits_dot_only {r : Fin 32} {c : Fin 64} (lit : Bool) (h : SpriteHits (dotState lit) 0 0 1 r c) : r = 0 ∧ c = 0 := by
  obtain ⟨j, k, hj, hk, hb, hr, hc⟩ := h
  have hj0 : j = 0 := Nat.lt_one_iff.1 hj
  have hk0 : k = 0 := by
    subst hj0
    have : ∀ k : Fin 8, ((dotState lit).readByte 0x300).getLsbD (7 - k.val) = true → k.val = 0 := by cases lit <;> decide
    exact this ⟨k, hk⟩ hb
  subst hj0; subst hk0
  have e : (dotState lit).getV 0 = 0 := by cases lit <;> decide
  rw [e] at hr hc
  exact ⟨Fin.ext hr, Fin.ext hc⟩
theorem witness_Draw_hit_on_a_lit_cell : SpriteInRange (dotState true) 1 ∧
    ∃ r c, SpriteHits (dotState true) 0 0 1 r c ∧ (dotState true).fb.cell r c = true := ⟨by decide, 0, 0, hits_dot _, by decide⟩
theorem witness_Draw_no_collision : SpriteInRange (dotState false) 1 ∧
    ∀ r c, SpriteHits (dotState false) 0 0 1 r c → (dotState false).fb.cell r c = false :=
  ⟨by decide, fun r c h => by obtain ⟨rfl, rfl⟩ := hits_dot_only _ h; decide⟩
theorem witness_Draw_cell_not_hit : ¬ SpriteHits (dotState false) 0 0 1 31 63 := fun h => by simpa using hits_dot_only _ h
/-- The second draw is on the state the first left; each of the three clauses about VF. -/
theorem witness_DrawingTwice_cell_off : ∃ s t u : State, SpriteInRange s 1 ∧ exec (.drw 0 0 1) s = .next t ∧
    t.getV 0 = s.getV 0 ∧ t.i = s.i ∧ Part.same s t .mem ∧ exec (.drw 0 0 1) t = .next u ∧
    ∃ r c, SpriteHits s 0 0 1 r c ∧ s.fb.cell r c = false :=
  ⟨dotState false, _, _, by decide, rfl, rfl, rfl, fun _ => rfl, rfl, 0, 0, hits_dot _, by decide⟩
theorem witness_DrawingTwice_cells_on : ∃ s t u : State, SpriteInRange s 1 ∧ exec (.drw 0 0 1) s = .next t ∧
    t.getV 0 = s.getV 0 ∧ t.i = s.i ∧ Part.same s t .mem ∧ exec (.drw 0 0 1) t = .next u ∧
    ∀ r c, SpriteHits s 0 0 1 r c → s.fb.cell r c = true :=
  ⟨dotState true, _, _, by decide, rfl, rfl, rfl, fun _ => rfl, rfl,
    fun r c h => by obtain ⟨rfl, rfl⟩ := hits_dot_only _ h; decide⟩
theorem witness_DrawingTwice_no_bit : ∃ s t u : State, SpriteInRange s 1 ∧ exec (.drw 0 0 1) s = .next t ∧
    t.getV 0 = s.getV 0 ∧ t.i = s.i ∧ Part.same s t .mem ∧ exec (.drw 0 0 1) t = .next u ∧
    ∀ j, j < (1 : BitVec 4).toNat → s.readByte (s.i.toNat + j) = 0 :=
  ⟨{ State.reset with i := 0xFFF }, _, _, by decide, rfl, rfl, rfl, fun _ => rfl, rfl, by decide⟩
theorem witness_Collision_turned_off : ∃ s t : State, SpriteInRange s 1 ∧ exec (.drw 0 0 1) s = .next t ∧
    ∃ r c, s.fb.cell r c = true ∧ t.fb.cell r c = false :=
  ⟨dotState true, _, by decide, rfl, 0, 0, by decide⟩
theorem witness_Collision_none : ∃ s t : State, SpriteInRange s 0 ∧ exec (.drw 0 0 0) s = .next t ∧
    ¬ ∃ r c, s.fb.cell r c = true ∧ t.fb.cell r c = false :=
  ⟨State.reset, _, by decide, rfl, fun ⟨r, c, h, h'⟩ => Bool.false_ne_true (h'.symm.trans h)⟩

theorem witness_KeySkips : ((twoRegs 1 15 0 0).getV 1).toNat = 15 ∧ ((twoRegs 1 16 0 0).getV 1).toNat = 16 := by decide
theorem witness_KeyWait_key_15 : key15.key[(15 : Fin 16).val] = true ∧ ∀ j : Fin 16, j < 15 → key15.key[j.val] = false := by decide
theorem witness_KeyWait_no_key : ∀ k : Fin 16, State.reset.key[k.val] = false := by decide
theorem witness_KeyWaitHolds : ∃ s : State, RunsNext s (.ldVxK 2) ∧ ∀ k : Fin 16, s.key[k.val] = false :=
  ⟨State.reset.withFetchWord 16 0xF20A, runsNext_of_decode _ _ _ (by decide), by decide⟩
theorem witness_TimerRead : RunsNext (State.reset.withFetchWord 16 0xF307) (.ldVxDt 3) := runsNext_of_decode _ _ _ (by decide)
theorem witness_DelaySet : RunsNext (State.reset.withFetchWord 16 0xFF15) (.ldDtVx 15) := runsNext_of_decode _ _ _ (by decide)
theorem witness_SoundSet : RunsNext ((twoRegs 1 1 0 0).withFetchWord 16 0xF118) (.ldStVx 1) ∧
    ((twoRegs 1 1 0 0).getV 1).toNat = 1 := ⟨runsNext_of_decode _ _ _ (by decide), by decide⟩
/-- A Halted block that is used: a register, a key, a cell, a byte of memory and a byte of FONT are not as `new()` leaves them. -/
def usedHalted : State :=
  { (haltedState.setV 15 7) with key := key15.key, fb := haltedState.fb.flip 3 4, mem := [(0x050, 1), (0x300, 9)],
                                 font := defaultFont.set 0 0xAA, draws := 5 }
/-- Vector H6: `new()` makes it a fresh one, with its own FONT. -/
theorem test_new_from_used_halted : (nextOf (applyOp .new usedHalted)).map (fun t =>
    (t.run, t.pc, [t.key[15], t.fb.cell 3 4], [t.getV 15, t.readByte 0x050, t.readByte 0x051, t.readByte 0x300])) =
    some (RunState.running, 0x200, [false, false], [0, 0xAA, 0x90, 0]) := by decide
theorem witness_EveryOperation_new : ∃ t, haltedState.Inv ∧ applyOp .new haltedState = .next t :=
  ⟨_, ⟨State.resetWith_mem_wf, by decide, by decide, by decide, fun f h => by cases h; rfl⟩, rfl⟩
/-- The longest program fits. -/
theorem witness_EveryOperation_load : ∃ t, State.reset.Inv ∧ applyOp (.load (List.replicate 3584 0)) State.reset = .next t := by
  have h : programFits (List.replicate 3584 0) = true := by rw [programFits, List.length_replicate]; decide
  rw [applyOp, State.hostLoad, h]
  exact ⟨_, ⟨State.resetWith_mem_wf, by decide, by decide, by decide, fun f h => by cases h⟩, rfl⟩
theorem witness_EveryOperation_setKey : ∃ t, State.reset.Inv ∧ applyOp (.setKey 15 true) State.reset = .next t :=
  ⟨_, ⟨State.resetWith_mem_wf, by decide, by decide, by decide, fun f h => by cases h⟩, rfl⟩
theorem witness_NoOperation_draws : ∃ t, applyOp .new usedHalted = .next t ∧ t.draws = 5 := ⟨_, rfl, rfl⟩
/-- Program P4 of 95_test_vectors.md, its cycles 3 and 4: the host sets key 7 between them. -/
theorem test_run_with_a_key_set : (fun t : State => (t.pc, t.getV 1, t.dt))
    (session [.cycle, .setKey 7 true, .cycle] ({ State.reset with dt := 4 }.withFetchWord 16 0xF10A)) = (0x202, 7, 2) := by decide
theorem test_reaches_with_a_key_set : Reaches (State.reset.withFetchWord 16 0xF10A) 0x202 :=
  ⟨[.cycle, .setKey 7 true, .cycle], by decide, rfl, by decide⟩
/-- An operation that returns an error leaves the state (R31), and so does `cycle()` on a Halted block (R119). -/
theorem test_after_changes_nothing : State.reset.after (.setKey 16 true) = State.reset ∧ haltedState.after .cycle = haltedState :=
  ⟨rfl, rfl⟩
/-- The last key, no cycle of waiting and one. -/
theorem witness_KeyPressedBetweenCycles : ∃ s : State, RunsNext s (.ldVxK 15) ∧ ∀ j : Fin 16, s.key[j.val] = false :=
  ⟨State.reset.withFetchWord 16 0xFF0A, runsNext_of_decode _ _ _ (by decide), by decide⟩
theorem witness_JumpToItself : ∃ s : State, RunsNext s (.jp 0xFFE) ∧ s.pc.toNat = (0xFFE : BitVec 12).toNat ∧
    ∀ o ∈ [HostOp.cycle, .setKey 15 true, .setKey 16 true], inRun o = true :=
  ⟨{ State.reset with pc := 0xFFE }.withFetchWord 16 0x1FFE, runsNext_of_decode _ _ _ (by decide), by decide, by decide⟩
/-- The set of R57's third row, in the statement's spelling, holds 8 and not 4: `8xy8` is unimplemented, `8xy4` is ADD. -/
theorem test_group8_set : (8 : BitVec 4) ∈ [0x8#4, 0x9#4, 0xA#4, 0xB#4, 0xC#4, 0xD#4, 0xF#4] ∧
    (4 : BitVec 4) ∉ [0x8#4, 0x9#4, 0xA#4, 0xB#4, 0xC#4, 0xD#4, 0xF#4] ∧
    decodeWord 0x8128 = none ∧ decodeWord 0x8124 = some (.addReg 1 2) := by decide
theorem witness_New_font_bounds : ¬ (0x050 ≤ 0x04F ∧ 0x04F ≤ 0x09F) ∧ ¬ (0x050 ≤ 0x0A0 ∧ 0x0A0 ≤ 0x09F) := by decide
theorem witness_Load : (List.replicate 3584 (0 : Byte)).length = 3584 ∧ (List.replicate 3585 (0 : Byte)).length > 3584 := by
  rw [List.length_replicate, List.length_replicate]; decide
theorem witness_SetKey : (15 : Nat) ≤ 15 ∧ (16 : Nat) > 15 := by decide

end Sys2Proof.Tests
end

section
/-! SUPPORT. FONT and the draw counter, over every instruction, cycle and host operation (00_scope.md R7; 42_alu.md R92). -/

namespace Sys2Proof.Machine

/-! ## What the shared operations do to FONT and the draw counter -/

@[simp] theorem State.aluStep_font (s : State) (op : AluOp) (x : Reg) (b : Byte) : (s.aluStep op x b).font = s.font := by
  obtain ⟨v, hv⟩ := s.aluStep_eq op x b
  rw [hv]

@[simp] theorem State.aluStep_draws (s : State) (op : AluOp) (x : Reg) (b : Byte) : (s.aluStep op x b).draws = s.draws := by
  obtain ⟨v, hv⟩ := s.aluStep_eq op x b
  rw [hv]

/-- A push that answers changes the stack and SP only (R67). -/
theorem State.push_some_eq {s t : State} {a : Word} (h : s.push a = some t) :
    ∃ stack, t = { s with stack := stack, sp := s.sp + 1 } := by
  unfold State.push at h
  split at h
  · cases h; exact ⟨_, rfl⟩
  · cases h

/-- A pop that answers changes SP only (R18, R67). -/
theorem State.pop_some_eq {s t : State} {a : Word} (h : s.pop = some (a, t)) : t = { s with sp := s.sp - 1 } := by
  unfold State.pop at h
  split at h <;> cases h
  rfl

/-! ## Instructions -/

/-- How many draws of RAND an executed instruction takes: one for `Cxnn` (R92), none for any other. -/
def drawsTaken : Instr → Nat
  | .rnd _ _ => 1
  | _ => 0

/-- Every instruction keeps FONT, and advances the draw counter by the draws it takes; an instruction that faults takes none. -/
theorem exec_font_draws {i : Instr} {s t : State} (h : exec i s = .next t) :
    t.font = s.font ∧ t.draws = s.draws + drawsTaken i := by
  cases i <;> simp only [exec] at h
  case ldImm | addImm | ldReg | orReg | andReg | xorReg | addReg | sub | shr | subn | shl =>
    cases h; exact ⟨State.aluStep_font .., State.aluStep_draws ..⟩
  case seImm | sneImm | seReg | sneReg =>
    cases h; exact ⟨State.skipIf_font .., State.skipIf_draws ..⟩
  case ret =>
    unfold execRet at h
    split at h <;> cases h
    · next a u hu => rw [State.pop_some_eq hu]; exact ⟨rfl, rfl⟩
    · exact ⟨rfl, rfl⟩
  case call =>
    unfold execCall at h
    split at h <;> cases h
    · next u hu => obtain ⟨stack, rfl⟩ := State.push_some_eq hu; exact ⟨rfl, rfl⟩
    · exact ⟨rfl, rfl⟩
  case skp | sknp =>
    simp only [execSkp, execSknp] at h
    split at h <;> cases h
    · exact ⟨State.skipIf_font .., State.skipIf_draws ..⟩
    · exact ⟨rfl, rfl⟩
  case drw | ldVxK | ldBVx | ldMemVx | ldVxMem =>
    simp only [execDrw, execLdVxK, execLdBVx, execLdMemVx, execLdVxMem] at h
    split at h <;> cases h <;> exact ⟨rfl, rfl⟩
  case cls | jp | ldI | jpV0 | rnd | ldVxDt | ldDtVx | ldStVx | addIVx | ldFVx => cases h; exact ⟨rfl, rfl⟩

/-! ## Cycles and host operations -/

/-- A cycle keeps FONT and does not lower the draw counter, whether it completes or faults. -/
theorem step_font_draws {s t : State} (h : step s = .next t) : t.font = s.font ∧ s.draws ≤ t.draws := by
  obtain ⟨-, ⟨-, rfl⟩ | ⟨op, -, -, rfl⟩ | ⟨op, i, u, -, -, hu, rfl⟩⟩ := step_next_cases h
  · exact ⟨rfl, le_rfl⟩
  · exact ⟨rfl, le_rfl⟩
  · obtain ⟨hfont, hdraws⟩ := exec_font_draws hu
    rw [State.advance_font] at hfont
    rw [State.advance_draws] at hdraws
    rw [State.finish_font, State.finish_draws, hdraws]
    exact ⟨hfont, Nat.le_add_right _ _⟩

/-- All a host operation that completes can do: the reset, the program's bytes written from 0x200 on, a step, or one key written. -/
theorem applyOp_next_cases {o : HostOp} {s t : State} (h : applyOp o s = .next t) :
    (o = .new ∧ t = s.renew) ∨
    (∃ bytes, o = .load bytes ∧ programFits bytes ∧
      t = { s with mem := s.mem.writeBytes s.font Config.progStart bytes }) ∨
    (o = .cycle ∧ step s = .next t) ∨
    ∃ index pressed, ∃ hi : index < 16, o = .setKey index pressed ∧ t = { s with key := s.key.set index pressed hi } := by
  cases o with
  | new => cases h; exact .inl ⟨rfl, rfl⟩
  | load bytes =>
    simp only [applyOp, State.hostLoad] at h
    split at h <;> cases h
    exact .inr (.inl ⟨bytes, rfl, ‹_›, rfl⟩)
  | cycle => exact .inr (.inr (.inl ⟨rfl, h⟩))
  | setKey index pressed =>
    simp only [applyOp, State.hostSetKey] at h
    split at h <;> cases h
    exact .inr (.inr (.inr ⟨index, pressed, ‹_›, rfl, rfl⟩))

/-- Settles O58, by the cases of a completed host operation: only a cycle can touch the draw counter, and only upwards. -/
theorem noOperationChangesTheFontOrRewindsTheDraws : Obligations.NoOperationChangesTheFontOrRewindsTheDraws := by
  intro o s t h
  obtain ⟨-, rfl⟩ | ⟨bytes, -, -, rfl⟩ | ⟨-, hs⟩ | ⟨index, pressed, hi, -, rfl⟩ := applyOp_next_cases h
  · exact ⟨rfl, le_rfl⟩
  · exact ⟨rfl, le_rfl⟩
  · exact step_font_draws hs
  · exact ⟨rfl, le_rfl⟩

end Sys2Proof.Machine
end

section
/-! SUPPORT. Frames: which parts of the state each shared operation, each instruction and each cycle can change; and from
them who writes the stack, SP, I, the keypad, the display and VF (10_state.md R14 to R23). -/

namespace Sys2Proof.Machine

/-! ## Frames compose -/

theorem Part.same_trans {s t u : State} {p : Part} (hst : p.same s t) (htu : p.same t u) : p.same s u := by
  cases p with
  | pc | i | sp | dt | st | run | draws | font => exact htu.trans hst
  | v | stack | key | mem => exact fun k => (htu k).trans (hst k)
  | fb => exact fun r c => (htu r c).trans (hst r c)

theorem OnlyChanges.mono {parts parts' : List Part} {s t : State} (h : OnlyChanges parts s t) (hsub : parts ⊆ parts') :
    OnlyChanges parts' s t := fun p hp => h p fun hmem => hp (hsub hmem)

theorem OnlyChanges.trans {parts parts' : List Part} {s t u : State} (hst : OnlyChanges parts s t)
    (htu : OnlyChanges parts' t u) : OnlyChanges (parts ++ parts') s u := fun p hp =>
  have ⟨h, h'⟩ := not_or.1 (mt List.mem_append.2 hp)
  Part.same_trans (hst p h) (htu p h')

/-! ## The frame of each update of the state -/

section
variable (s : State)

theorem State.onlyChanges_v (v : Vector Byte 16) : OnlyChanges [.v] s { s with v := v } := by
  intro p hp; cases p <;> simp_all [Part.same, State.readByte]

theorem State.onlyChanges_fb (fb : Display) : OnlyChanges [.fb] s { s with fb := fb } := by
  intro p hp; cases p <;> simp_all [Part.same, State.getV, State.readByte]

theorem State.onlyChanges_mem (m : Memory) : OnlyChanges [.mem] s { s with mem := m } := by
  intro p hp; cases p <;> simp_all [Part.same, State.getV]

theorem State.onlyChanges_key (key : Vector Bool 16) : OnlyChanges [.key] s { s with key := key } := by
  intro p hp; cases p <;> simp_all [Part.same, State.getV, State.readByte]

theorem State.onlyChanges_stack_sp (stack : Vector Word 16) (sp : Byte) :
    OnlyChanges [.stack, .sp] s { s with stack := stack, sp := sp } := by
  intro p hp; cases p <;> simp_all [Part.same, State.getV, State.readByte]

theorem State.onlyChanges_sp (sp : Byte) : OnlyChanges [.sp] s { s with sp := sp } := by
  intro p hp; cases p <;> simp_all [Part.same, State.getV, State.readByte]

theorem State.onlyChanges_dt (dt : Byte) : OnlyChanges [.dt] s { s with dt := dt } := by
  intro p hp; cases p <;> simp_all [Part.same, State.getV, State.readByte]

theorem State.onlyChanges_st (st : Byte) : OnlyChanges [.st] s { s with st := st } := by
  intro p hp; cases p <;> simp_all [Part.same, State.getV, State.readByte]

theorem State.onlyChanges_draws (n : Nat) : OnlyChanges [.draws] s { s with draws := n } := by
  intro p hp; cases p <;> simp_all [Part.same, State.getV, State.readByte]

theorem State.onlyChanges_setPc (a : Word) : OnlyChanges [.pc] s (s.setPc a) := by
  intro p hp; cases p <;> simp_all [Part.same]

theorem State.onlyChanges_skipIf (c : Bool) : OnlyChanges [.pc] s (s.skipIf c) := by
  intro p hp; cases p <;> simp_all [Part.same]

theorem State.onlyChanges_setI (a : Word) : OnlyChanges [.i] s (s.setI a) := by
  intro p hp; cases p <;> simp_all [Part.same]

theorem State.onlyChanges_raiseFault (code : FaultCode) (op d : Word) :
    OnlyChanges [.pc, .run] s (s.raiseFault code op d) := by
  intro p hp; cases p <;> simp_all [Part.same]

theorem State.onlyChanges_finish : OnlyChanges [.dt, .st] s s.finish := by
  intro p hp; cases p <;> simp_all [Part.same]

theorem State.onlyChanges_setV (x : Reg) (b : Byte) : OnlyChanges [.v] s (s.setV x b) := s.onlyChanges_v _

theorem State.onlyChanges_storeBytes (bs : List Byte) : OnlyChanges [.mem] s (s.storeBytes bs) := s.onlyChanges_mem _

theorem State.onlyChanges_aluStep (op : AluOp) (x : Reg) (b : Byte) : OnlyChanges [.v] s (s.aluStep op x b) := by
  obtain ⟨v, hv⟩ := s.aluStep_eq op x b
  rw [hv]
  exact s.onlyChanges_v v

end

/-! ## The frame of each instruction -/

/-- The parts an executed instruction can change; one that can fault puts pc back and halts the block (R118). -/
def touchedParts : Instr → List Part
  | .cls => [.fb]
  | .ret => [.sp, .pc, .run]
  | .call _ => [.stack, .sp, .pc, .run]
  | .jp _ | .jpV0 _ | .seImm _ _ | .sneImm _ _ | .seReg _ _ | .sneReg _ _ => [.pc]
  | .ldImm _ _ | .addImm _ _ | .ldReg _ _ | .orReg _ _ | .andReg _ _ | .xorReg _ _ => [.v]
  | .addReg _ _ | .sub _ _ | .shr _ _ | .subn _ _ | .shl _ _ => [.v]
  | .rnd _ _ => [.draws, .v]
  | .drw _ _ _ => [.fb, .v, .pc, .run]
  | .skp _ | .sknp _ => [.pc, .run]
  | .ldVxDt _ => [.v]
  | .ldVxK _ => [.v, .pc]
  | .ldDtVx _ => [.dt]
  | .ldStVx _ => [.st]
  | .ldI _ | .addIVx _ | .ldFVx _ => [.i]
  | .ldBVx _ | .ldMemVx _ => [.mem, .pc, .run]
  | .ldVxMem _ => [.v, .pc, .run]

/-- An instruction changes its touched parts only, whether it completes or faults. -/
theorem exec_onlyChanges {i : Instr} {s t : State} (h : exec i s = .next t) : OnlyChanges (touchedParts i) s t := by
  cases i <;> simp only [exec] at h
  case ldImm | addImm | ldReg | orReg | andReg | xorReg | addReg | sub | shr | subn | shl =>
    cases h; exact s.onlyChanges_aluStep _ _ _
  case seImm | sneImm | seReg | sneReg => cases h; exact s.onlyChanges_skipIf _
  case jp | jpV0 => cases h; exact s.onlyChanges_setPc _
  case ldI | addIVx | ldFVx => cases h; exact s.onlyChanges_setI _
  case cls => cases h; exact s.onlyChanges_fb _
  case ldVxDt => cases h; exact s.onlyChanges_setV _ _
  case ldDtVx => cases h; exact s.onlyChanges_dt _
  case ldStVx => cases h; exact s.onlyChanges_st _
  case rnd => cases h; exact (s.onlyChanges_draws _).trans (State.onlyChanges_setV _ _ _)
  case ret =>
    unfold execRet at h
    split at h <;> cases h
    · next a u hu =>
      rw [State.pop_some_eq hu]
      exact ((s.onlyChanges_sp _).trans (State.onlyChanges_setPc _ _)).mono (by simp [touchedParts])
    · exact (s.onlyChanges_raiseFault _ _ _).mono (by simp [touchedParts])
  case call =>
    unfold execCall at h
    split at h <;> cases h
    · next u hu =>
      obtain ⟨stack, rfl⟩ := State.push_some_eq hu
      exact ((s.onlyChanges_stack_sp _ _).trans (State.onlyChanges_setPc _ _)).mono (by simp [touchedParts])
    · exact (s.onlyChanges_raiseFault _ _ _).mono (by simp [touchedParts])
  case skp | sknp =>
    simp only [execSkp, execSknp] at h
    split at h <;> cases h
    · exact (s.onlyChanges_skipIf _).mono (by simp [touchedParts])
    · exact s.onlyChanges_raiseFault _ _ _
  case drw =>
    unfold execDrw at h
    split at h <;> cases h
    · exact (s.onlyChanges_raiseFault _ _ _).mono (by simp [touchedParts])
    · exact ((s.onlyChanges_fb _).trans (State.onlyChanges_setV _ _ _)).mono (by simp [touchedParts])
  case ldVxK =>
    unfold execLdVxK at h
    split at h <;> cases h
    · exact (s.onlyChanges_setV _ _).mono (by simp [touchedParts])
    · exact (s.onlyChanges_setPc _).mono (by simp [touchedParts])
  case ldBVx | ldMemVx =>
    simp only [execLdBVx, execLdMemVx] at h
    split at h <;> cases h
    · exact (s.onlyChanges_raiseFault _ _ _).mono (by simp [touchedParts])
    · exact (s.onlyChanges_storeBytes _).mono (by simp [touchedParts])
  case ldVxMem =>
    unfold execLdVxMem at h
    split at h <;> cases h
    · exact (s.onlyChanges_raiseFault _ _ _).mono (by simp [touchedParts])
    · exact (s.onlyChanges_v _).mono (by simp [touchedParts])

@[simp] theorem stack_mem_touchedParts {i : Instr} : Part.stack ∈ touchedParts i ↔ ∃ nnn, i = .call nnn := by
  cases i <;> simp [touchedParts]

@[simp] theorem sp_mem_touchedParts {i : Instr} : Part.sp ∈ touchedParts i ↔ (∃ nnn, i = .call nnn) ∨ i = .ret := by
  cases i <;> simp [touchedParts]

@[simp] theorem i_mem_touchedParts {i : Instr} :
    Part.i ∈ touchedParts i ↔ (∃ nnn, i = .ldI nnn) ∨ (∃ x, i = .addIVx x) ∨ ∃ x, i = .ldFVx x := by
  cases i <;> simp [touchedParts]

@[simp] theorem key_not_mem_touchedParts (i : Instr) : Part.key ∉ touchedParts i := by
  cases i <;> simp [touchedParts]

@[simp] theorem fb_mem_touchedParts {i : Instr} : Part.fb ∈ touchedParts i ↔ i = .cls ∨ ∃ x y n, i = .drw x y n := by
  cases i <;> simp [touchedParts]

/-! ## The frame of a cycle -/

theorem WordAtPc.fetch {s : State} {op : Word} (h : WordAtPc s op) : s.fetch = some op := by
  obtain ⟨hpc, hhi, hlo⟩ := h
  rw [State.fetch_of_le s hpc, hhi, hlo, wordOfBytes_halves]

/-- A cycle of a decoded instruction is its execution on the advanced state, then the end of the cycle (R60). -/
theorem RunsNext.step_next {s t : State} {i : Instr} (h : RunsNext s i) (hs : step s = .next t) :
    ∃ u, exec i s.advance = .next u ∧ t = u.finish := by
  obtain ⟨hrun, op, hop, hdec⟩ := h
  obtain ⟨u, hu⟩ := exec_answers_next i s.advance
  rw [step_of_decoded hrun hop.fetch hdec, hu] at hs
  cases hs
  exact ⟨u, hu, rfl⟩

/-- A cycle changes pc, the timers and what its instruction touches, nothing else. -/
theorem RunsNext.onlyChanges {s t : State} {i : Instr} (h : RunsNext s i) (hs : step s = .next t) :
    OnlyChanges ([.pc] ++ touchedParts i ++ [.dt, .st]) s t := by
  obtain ⟨u, hu, rfl⟩ := h.step_next hs
  exact ((s.onlyChanges_setPc _).trans (exec_onlyChanges hu)).trans u.onlyChanges_finish

/-- Settles O18: of all instructions only `2nnn` touches the stack, and only `2nnn` and `00EE` touch SP. -/
theorem onlyCallAndReturnTouchTheStack : Obligations.OnlyCallAndReturnTouchTheStack := by
  intro s t i h hs
  have frame := h.onlyChanges hs
  exact ⟨fun hcall => frame .stack (by simp [hcall]),
    fun hcall hret => frame .sp (by simp [hcall, hret])⟩

/-- Settles O19: of all instructions only `Annn`, `Fx1E` and `Fx29` touch I. -/
theorem onlyThreeInstructionsWriteI : Obligations.OnlyThreeInstructionsWriteI := by
  intro s t i h hs hne
  by_contra hi
  exact hne (h.onlyChanges hs .i (by simpa using hi))

/-- Settles O20: no instruction touches the keypad, and only `00E0` and `Dxyn` touch the display. -/
theorem onlyDrawAndClearChangeTheDisplay : Obligations.OnlyDrawAndClearChangeTheDisplay := by
  intro s t i h hs
  have frame := h.onlyChanges hs
  exact ⟨frame .key (by simp),
    fun hcls hdrw => frame .fb (by simp [hcls, hdrw])⟩

/-! ## VF -/

/-- `Fx65` keeps every register above Vx (R99). -/
theorem State.getV_regsLoaded_other (s : State) {x r : Reg} (hr : x < r) :
    State.getV { s with v := s.regsLoaded x } r = s.getV r := by
  rw [State.getV, State.getElem_regsLoaded, if_neg (by simpa using hr)]

/-- An instruction that writes VF neither as a flag nor as its destination keeps it (R14). -/
theorem exec_getV_vf {i : Instr} {s t : State} (h : exec i s = .next t) (hflag : writesFlag i = false)
    (hdest : writesVfAsDestination i = false) : t.getV 15 = s.getV 15 := by
  by_cases hv : Part.v ∈ touchedParts i
  case neg => exact exec_onlyChanges h .v hv 15
  cases i <;> simp only [touchedParts, List.mem_cons, reduceCtorEq, List.not_mem_nil, or_false] at hv
  case addReg | sub | shr | subn | shl | drw => cases hflag
  all_goals
    simp only [exec] at h
    have hx := Ne.symm (of_decide_eq_false hdest)
  case ldImm | addImm | ldReg | orReg | andReg | xorReg => cases h; exact s.getV_aluStep_noFlag _ _ _ rfl hx
  case rnd | ldVxDt => cases h; exact State.getV_setV_other _ _ _ _ hx
  case ldVxK =>
    unfold execLdVxK at h
    split at h <;> cases h
    · exact s.getV_setV_other _ _ _ hx
    · rfl
  case ldVxMem =>
    unfold execLdVxMem at h
    split at h <;> cases h
    · rfl
    · exact s.getV_regsLoaded_other (lt_of_le_of_ne (Fin.le_last _) hx.symm)

/-- A flag is one bit widened, so VF holds 0 or 1 after an ALU step that writes it beside another destination (R14, R80). -/
theorem State.getV_aluStep_vf_bit (s : State) {op : AluOp} {x : Reg} {b : Byte} {c : Bool} (hx : x ≠ 15)
    (hf : (alu op (s.getV x) b).2 = some (flagByte c)) :
    (s.aluStep op x b).getV 15 = 0 ∨ (s.aluStep op x b).getV 15 = 1 := by
  rw [s.getV_aluStep_vf op x b hx hf]
  cases c
  · exact .inl rfl
  · exact .inr rfl

/-- Settles O21, from the frame of VF and the five ALU flags, each one bit widened. -/
theorem onlyTheListedInstructionsWriteVF : Obligations.OnlyTheListedInstructionsWriteVF := by
  refine ⟨fun s t i h hs hne => ?_, fun s t x y hx i hi h => ?_⟩
  · obtain ⟨u, hu, rfl⟩ := h.step_next hs
    by_contra hno
    rw [not_or, Bool.not_eq_true, Bool.not_eq_true] at hno
    exact hne ((u.getV_finish 15).trans ((exec_getV_vf hu hno.1 hno.2).trans (s.getV_advance 15)))
  · simp only [List.mem_cons, List.not_mem_nil, or_false] at hi
    obtain rfl | rfl | rfl | rfl | rfl := hi <;> cases h <;> exact s.getV_aluStep_vf_bit hx rfl

end Sys2Proof.Machine
end

section
/-! SUPPORT. The invariant of the block, over every instruction, cycle and host operation (10_state.md R16, R19;
41_control_flow.md R68; 60_exceptions.md R118), and what a cycle answers (10_state.md R30). -/

namespace Sys2Proof.Machine

/-! ## The state an instruction runs on -/

/-- What a cycle that fetched knows of the advanced state it executes on, from the invariant before it: pc was at most
0xFFE (R40), so it is now in 2..0x1000. -/
structure State.Fetched (s : State) : Prop where
  inv : s.Inv
  running : s.run = .running
  pc_ge : 2 ≤ s.pc.toNat
  pc_le : s.pc.toNat ≤ 0x1000

theorem State.Inv.fetched_advance {s : State} {op : Word} (h : s.Inv) (hrun : s.run = .running) (hf : s.fetch = some op) :
    s.advance.Fetched := by
  have hpc : s.pc.toNat ≤ 0xFFE := by
    by_contra hgt
    simp [s.fetch_of_gt (by omega)] at hf
  have hadv : s.advance.pc.toNat = s.pc.toNat + 2 := by
    rw [State.advance_pc]; bv_omega
  obtain ⟨hmem, hsp, -, hstack, -⟩ := h
  exact ⟨⟨hmem, hsp, by omega, hstack, fun f hf => by simp [hrun] at hf⟩, hrun, by omega, by omega⟩

/-! ## What keeps the invariant, per operation -/

section
variable {s : State}

/-- The invariant says nothing of V, I, the timers, the keys, the display and the draw counter. -/
theorem State.Inv.withData (h : s.Inv) (v : Vector Byte 16) (i : Word) (dt st : Byte) (key : Vector Bool 16)
    (fb : Display) (draws : Nat) :
    State.Inv { s with v := v, i := i, dt := dt, st := st, key := key, fb := fb, draws := draws } :=
  ⟨h.mem_wf, h.sp_le, h.pc_le, h.stack_le, h.record_addr⟩

theorem State.Inv.aluStep (h : s.Inv) (op : AluOp) (x : Reg) (b : Byte) : (s.aluStep op x b).Inv := by
  obtain ⟨v, hv⟩ := s.aluStep_eq op x b
  rw [hv]
  exact h.withData ..

theorem State.Inv.finish (h : s.Inv) : s.finish.Inv := by
  unfold State.finish
  split
  · exact h.withData ..
  · exact h

theorem State.Inv.writeBytes (h : s.Inv) {a : Nat} {bs : List Byte} (hlen : a + bs.length ≤ Config.memSize) :
    State.Inv { s with mem := s.mem.writeBytes s.font a bs } :=
  ⟨Memory.wf_writeBytes h.mem_wf bs hlen, h.sp_le, h.pc_le, h.stack_le, h.record_addr⟩

/-- Bytes whose range check passed are stored inside the memory (R93). -/
theorem State.Inv.storeBytes (h : s.Inv) {bs : List Byte} (hr : s.rangeFault bs.length = none) (hpos : 0 < bs.length) :
    (s.storeBytes bs).Inv := by
  refine h.writeBytes ?_
  obtain ⟨-, hin⟩ | ⟨d, hd⟩ := s.rangeFault_cases bs.length
  · simp only [Config.memSize]; omega
  · cases hr.symm.trans hd

/-- A fault's record holds the pc the block stops at (R118). -/
theorem State.Inv.takeFault (h : s.Inv) (code : FaultCode) {a : Word} (ha : a.toNat ≤ 0x10FE) (op : Option Word)
    (d : Word) : (s.takeFault code a op d).Inv :=
  ⟨h.mem_wf, h.sp_le, ha, h.stack_le, fun f hf => by cases hf; rfl⟩

theorem State.Fetched.raiseFault (h : s.Fetched) (code : FaultCode) (op d : Word) : (s.raiseFault code op d).Inv :=
  have ⟨hinv, _, hge, hle⟩ := h
  hinv.takeFault code (by bv_omega) _ d

/-- A Running block may go to any address up to 0x10FE (R16). -/
theorem State.Inv.setPc (h : s.Inv) (hrun : s.run = .running) {a : Word} (ha : a.toNat ≤ 0x10FE) : (s.setPc a).Inv :=
  ⟨h.mem_wf, h.sp_le, ha, h.stack_le, fun f hf => by simp [hrun] at hf⟩

theorem State.Fetched.skipIf (h : s.Fetched) (c : Bool) : (s.skipIf c).Inv := by
  obtain ⟨hinv, hrun, -, hle⟩ := h
  cases c with
  | false => exact hinv
  | true => exact hinv.setPc hrun (by bv_omega)

theorem toNat_addrWord_le (nnn : BitVec 12) : (addrWord nnn).toNat ≤ 0x10FE := by
  simp only [BitVec.toNat_setWidth]; omega

/-- The target of `Bnnn` is at most 0x0FF + 0xFFF (R71). -/
theorem State.toNat_offsetTarget_le (s : State) (nnn : BitVec 12) : (s.offsetTarget nnn).toNat ≤ 0x10FE := by
  have hv := (s.getV 0).isLt
  have hn := nnn.isLt
  simp only [State.offsetTarget, BitVec.toNat_add, BitVec.toNat_setWidth]
  omega

/-- A push of an address at most 0x1000 keeps the invariant: SP was below 16 (R67). -/
theorem State.Inv.push (h : s.Inv) {a : Word} (ha : a.toNat ≤ 0x1000) {t : State} (ht : s.push a = some t) :
    t.Inv ∧ t.run = s.run := by
  unfold State.push at ht
  split at ht <;> cases ht
  refine ⟨⟨h.mem_wf, by bv_omega, h.pc_le, fun k => ?_, h.record_addr⟩, rfl⟩
  simp only [Vector.getElem_set]
  split
  · exact ha
  · exact h.stack_le k

/-- A pop keeps the invariant and answers a stack slot (R67). -/
theorem State.Inv.pop (h : s.Inv) {a : Word} {t : State} (ht : s.pop = some (a, t)) :
    t.Inv ∧ t.run = s.run ∧ a.toNat ≤ 0x1000 := by
  unfold State.pop at ht
  split at ht <;> cases ht
  next hsp =>
  have hlt : s.sp.toNat - 1 < 16 := by omega
  exact ⟨⟨h.mem_wf, by bv_omega, h.pc_le, h.stack_le, h.record_addr⟩, rfl, h.stack_le ⟨_, hlt⟩⟩

end

/-! ## Instructions and cycles -/

/-- Every instruction, whether it completes or faults, leaves a state that meets the invariant. -/
theorem State.Fetched.exec {i : Instr} {s t : State} (hs : s.Fetched) (h : exec i s = .next t) : t.Inv := by
  have ⟨hinv, hrun, hge, hle⟩ := hs
  cases i <;> simp only [Machine.exec] at h
  case ldImm | addImm | ldReg | orReg | andReg | xorReg | addReg | sub | shr | subn | shl => cases h; exact hinv.aluStep ..
  case seImm | sneImm | seReg | sneReg => cases h; exact hs.skipIf _
  case cls | ldVxDt | ldDtVx | ldStVx | ldI | addIVx | ldFVx | rnd => cases h; exact hinv.withData ..
  case jp nnn => cases h; exact hinv.setPc hrun (toNat_addrWord_le nnn)
  case jpV0 nnn => cases h; exact hinv.setPc hrun (s.toNat_offsetTarget_le nnn)
  case ret =>
    unfold execRet at h
    split at h <;> cases h
    · next a u hu =>
      obtain ⟨hu, hur, ha⟩ := hinv.pop hu
      exact hu.setPc (hur.trans hrun) (by omega)
    · exact hs.raiseFault ..
  case call nnn =>
    unfold execCall at h
    split at h <;> cases h
    · next u hu =>
      obtain ⟨hu, hur⟩ := hinv.push hle hu
      exact hu.setPc (hur.trans hrun) (toNat_addrWord_le nnn)
    · exact hs.raiseFault ..
  case skp | sknp =>
    simp only [execSkp, execSknp] at h
    split at h <;> cases h
    · exact hs.skipIf _
    · exact hs.raiseFault ..
  case ldVxK =>
    unfold execLdVxK at h
    split at h <;> cases h
    · exact hinv.withData ..
    · exact hinv.setPc hrun (by bv_omega)
  case drw | ldVxMem =>
    simp only [execDrw, execLdVxMem] at h
    split at h <;> cases h
    · exact hs.raiseFault ..
    · exact hinv.withData ..
  case ldBVx =>
    unfold execLdBVx at h
    split at h <;> cases h
    · exact hs.raiseFault ..
    · next hr => exact hinv.storeBytes hr (by simp [decimalDigits_length])
  case ldMemVx x =>
    unfold execLdMemVx at h
    split at h <;> cases h
    · exact hs.raiseFault ..
    · next hr =>
      rw [← s.regsUpTo_length x] at hr
      exact hinv.storeBytes hr (by simp [State.regsUpTo_length])

/-- Settles O14, by what a step can do: a fetch or decode fault where the block stands, or an instruction on the advanced
state. -/
theorem everyStepKeepsTheInvariant : Obligations.EveryStepKeepsTheInvariant := by
  intro s t h hs
  obtain ⟨hrun, ⟨-, rfl⟩ | ⟨op, -, -, rfl⟩ | ⟨op, i, u, hf, -, hu, rfl⟩⟩ := step_next_cases hs
  · exact h.takeFault _ h.pc_le _ _
  · exact h.takeFault _ h.pc_le _ _
  · exact ((h.fetched_advance hrun hf).exec hu).finish

/-! ## Host operations -/

/-- The state after `new()` meets the invariant, whatever the FONT (R130). -/
theorem State.resetWith_inv (font : Font) : (State.resetWith font).Inv :=
  ⟨State.resetWith_mem_wf, by simp [State.resetWith], by simp [State.resetWith, Config.progStart],
    fun k => by simp [State.resetWith], fun f hf => by cases hf⟩

/-- Settles O57, by the cases of a completed host operation. -/
theorem everyOperationKeepsTheInvariant : Obligations.EveryOperationKeepsTheInvariant := by
  refine ⟨State.resetWith_inv _, fun o s t h ht => ?_⟩
  obtain ⟨-, rfl⟩ | ⟨bytes, -, hfits, rfl⟩ | ⟨-, hs⟩ | ⟨index, pressed, hi, -, rfl⟩ := applyOp_next_cases ht
  · exact (State.resetWith_inv _).withData ..
  · have hlen := of_decide_eq_true hfits
    exact h.writeBytes (by simp only [Config.progStart, Config.progMax, Config.memSize] at hlen ⊢; omega)
  · exact everyStepKeepsTheInvariant s t h hs
  · exact h.withData ..

/-- Settles O15, by induction on the session. -/
theorem reachableStatesMeetTheInvariant : Obligations.ReachableStatesMeetTheInvariant := by
  intro s hs
  induction hs with
  | reset font => exact State.resetWith_inv font
  | op o s t _ ht ih => exact everyOperationKeepsTheInvariant.2 o s t ih ht

/-! ## What a cycle answers -/

theorem step_of_halted {s : State} {f : FaultRecord} (h : s.run = .halted f) : step s = .fault (.halted f) := by
  simp [step, cycle, h]

theorem step_of_no_fetch {s : State} (hrun : s.run = .running) (hf : s.fetch = none) :
    step s = .next (s.takeFault .fetchOutOfRange s.pc none s.pc) := by
  simp [step, cycle, hrun, hf]

theorem step_of_undecoded {s : State} {op : Word} (hrun : s.run = .running) (hf : s.fetch = some op)
    (hd : decodeWord op = none) : step s = .next (s.takeFault .unimplementedOpcode s.pc (some op) 0) := by
  simp [step, cycle, runWord, hrun, hf, hd]

/-- Settles O7, by the three ways a cycle of a Running block ends: no fetch, no decoding, or an instruction, which
always answers a next state. -/
theorem cycleStopsOnlyOnAHaltedBlock : Obligations.CycleStopsOnlyOnAHaltedBlock := by
  refine ⟨fun s hrun => ?_, fun s f => step_of_halted⟩
  cases hf : s.fetch with
  | none => exact ⟨_, step_of_no_fetch hrun hf⟩
  | some op =>
    cases hd : decodeWord op with
    | none => exact ⟨_, step_of_undecoded hrun hf hd⟩
    | some i =>
      obtain ⟨u, hu⟩ := exec_answers_next i s.advance
      exact ⟨u.finish, by rw [step_of_decoded hrun hf hd, hu]; rfl⟩

/-- Outside FONT a block with nothing loaded reads 0 everywhere (R36). -/
theorem State.readByte_resetWith_outside (font : Font) {a : Nat} (h : ¬ (0x050 ≤ a ∧ a ≤ 0x09F)) :
    (State.resetWith font).readByte a = 0 := unlisted_outside h

/-- Settles O53: the two bytes at 0x200 are outside FONT, and the word 0x0000 decodes to nothing (R57). -/
theorem emptyBlockFaultsOnItsFirstCycle : Obligations.EmptyBlockFaultsOnItsFirstCycle := by
  intro font
  have hpc : (State.resetWith font).pc.toNat = 0x200 := rfl
  have hword : WordAtPc (State.resetWith font) 0x0000 :=
    ⟨by omega, State.readByte_resetWith_outside font (by omega), State.readByte_resetWith_outside font (by omega)⟩
  exact step_of_undecoded rfl hword.fetch (by decide)

end Sys2Proof.Machine
end

section
/-! SUPPORT. The host's operations and reads: load, set_key and get_display (10_state.md R29, R31, R32). -/

namespace Sys2Proof.Machine

/-! ## load and set_key -/

theorem programFits_iff (bytes : List Byte) : programFits bytes = true ↔ bytes.length ≤ 3584 := decide_eq_true_iff

/-- Settles O54, by the read after writing bytes. -/
theorem loadWritesTheProgramOrRefuses : Obligations.LoadWritesTheProgramOrRefuses := by
  intro bytes s
  refine ⟨fun hlen => ?_, fun hlen => ?_⟩
  · refine ⟨{ s with mem := s.mem.writeBytes s.font Config.progStart bytes }, ?_, fun k hk => ?_, fun b hb => ?_,
      s.onlyChanges_mem _⟩
    · simp [applyOp, State.hostLoad, (programFits_iff bytes).2 hlen]
    · rw [State.readByte, Memory.read_writeBytes, if_pos (by simp only [Config.progStart]; omega), Config.progStart,
        Nat.add_sub_cancel_left]
    · exact (Memory.read_writeBytes ..).trans (if_neg hb)
  · have hfits := (programFits_iff bytes).not.2 (by omega)
    simp [applyOp, State.hostLoad, hfits]

/-- Settles O55: `set_key` writes one slot of the key vector. -/
theorem setKeyWritesOneKeyOrRefuses : Obligations.SetKeyWritesOneKeyOrRefuses := by
  intro index pressed s
  refine ⟨fun hi => ?_, fun hi => ?_⟩
  · have hlt : index < 16 := by omega
    refine ⟨{ s with key := s.key.set index pressed }, ?_, ?_, fun k hk => ?_, s.onlyChanges_key _⟩
    · simp [applyOp, State.hostSetKey, hlt]
    · exact Vector.getElem_set_self hlt
    · exact Vector.getElem_set_ne hlt k.isLt hk.symm
  · have hge : ¬ index < 16 := by omega
    simp [applyOp, State.hostSetKey, hge]

/-! ## get_display -/

/-- The display read is the rows one after another. -/
theorem State.getDisplay_eq_flatten (s : State) : s.getDisplay = s.fb.flatten.toList := by
  simp only [State.getDisplay, Vector.flatten, Vector.toList_mk, Array.toList_flatten, Array.toList_map, List.map_map,
    List.flatMap_def]
  rfl

/-- Settles O56: element r*64 + c of the rows one after another is in row r at place c. -/
theorem getDisplayIsRowMajor : Obligations.GetDisplayIsRowMajor := by
  intro s
  rw [State.getDisplay_eq_flatten]
  refine ⟨Vector.length_toList, fun r c => ?_⟩
  have hdiv : (r.val * 64 + c.val) / 64 = r.val := by omega
  have hmod : (r.val * 64 + c.val) % 64 = c.val := by omega
  rw [Vector.getElem?_toList, Vector.getElem?_eq_getElem (by omega), Vector.getElem_flatten]
  simp only [hdiv, hmod, Display.cell]

end Sys2Proof.Machine
end

section
/-! SUPPORT. Memory over a cycle: the bytes an instruction stores and the bytes it keeps, the fetch of a word just stored, and
the fetch above the memory (20_memory.md R40, R42, R44, R48; 43_index_memory.md R93, R97, R98). -/

namespace Sys2Proof.Machine

/-! ## The bytes an instruction stores -/

@[simp] theorem mem_mem_touchedParts {i : Instr} :
    Part.mem ∈ touchedParts i ↔ (∃ x, i = .ldBVx x) ∨ ∃ x, i = .ldMemVx x := by
  cases i <;> simp [touchedParts]

/-- Storing n bytes from I on keeps every byte outside them. -/
theorem State.memKeptOutside_storeBytes (s : State) {bs : List Byte} {n : Nat} (hlen : bs.length = n) :
    MemKeptOutside s.i.toNat n s (s.storeBytes bs) := by
  intro b hb
  rw [State.readByte_storeBytes, hlen, if_neg hb]

/-- An executed instruction keeps every byte outside the ones it stores from I on; one that faults stores none. -/
theorem exec_memKeptOutside {i : Instr} {s t : State} (h : exec i s = .next t) :
    MemKeptOutside s.i.toNat (storedCount i) s t := by
  by_cases hstores : Part.mem ∈ touchedParts i
  · obtain ⟨x, rfl⟩ | ⟨x, rfl⟩ := mem_mem_touchedParts.1 hstores
    · simp only [exec, execLdBVx] at h
      split at h <;> cases h
      · exact fun b _ => State.readByte_raiseFault ..
      · exact s.memKeptOutside_storeBytes (decimalDigits_length _)
    · simp only [exec, execLdMemVx] at h
      split at h <;> cases h
      · exact fun b _ => State.readByte_raiseFault ..
      · exact s.memKeptOutside_storeBytes (s.regsUpTo_length x)
  · exact fun b _ => exec_onlyChanges h .mem hstores b

/-- Settles O17: neither the advance of pc nor the end of the cycle touches memory or I, so the bytes kept are those the
instruction keeps. -/
theorem onlyStoresChangeMemory : Obligations.OnlyStoresChangeMemory := by
  intro s t i a h hs ha
  obtain ⟨u, hu, rfl⟩ := h.step_next hs
  exact (State.readByte_finish u a).trans (exec_memKeptOutside hu a ha)

/-! ## The fetch of a stored word -/

/-- `Fx55` stores V0..Vx from I on where they fit into the memory (R98). -/
theorem exec_ldMemVx_of_le {s : State} {x : Reg} (h : s.i.toNat + x.val ≤ 0xFFF) :
    exec (.ldMemVx x) s = .next (s.storeBytes (s.regsUpTo x)) := by
  rw [exec, execLdMemVx, s.rangeFault_none (x.val + 1) (by omega)]

/-- After V0..Vx are stored from I on, the byte at I + k is V[k]. -/
theorem State.readByte_storeBytes_regsUpTo (s : State) {x k : Reg} (hk : k.val ≤ x.val) :
    (s.storeBytes (s.regsUpTo x)).readByte (s.i.toNat + k.val) = s.getV k := by
  rw [State.readByte_storeBytes, s.regsUpTo_length, if_pos (by omega), Nat.add_sub_cancel_left,
    s.getElem?_regsUpTo x k hk, Option.getD_some]

/-- With pc at I, a fetch after V0..Vx are stored from I on gives V0 as the high and V1 as the low byte (R40, R48). -/
theorem State.fetch_storeBytes_regsUpTo (s : State) {x : Reg} (hx : 1 ≤ x.val) (hpc : s.pc = s.i)
    (hi : s.i.toNat + x.val ≤ 0xFFF) :
    (s.storeBytes (s.regsUpTo x)).fetch = some (wordOfBytes (s.getV 0) (s.getV 1)) := by
  have hhi := s.readByte_storeBytes_regsUpTo (x := x) (k := 0) (Nat.zero_le _)
  have hlo := s.readByte_storeBytes_regsUpTo (x := x) (k := 1) hx
  rw [State.fetch_of_le _ (by rw [State.storeBytes_pc, hpc]; omega), State.storeBytes_pc, hpc]
  exact congrArg some (congrArg₂ wordOfBytes hhi hlo)

/-- The end of a cycle changes nothing a fetch reads. -/
@[simp] theorem State.fetch_finish (s : State) : s.finish.fetch = s.fetch := by
  simp only [State.fetch, State.finish_pc, State.readByte_finish]

/-- Settles O41: the advanced pc is I, so the next fetch reads the first two bytes the instruction stored. -/
theorem storedWordIsFetchedNext : Obligations.StoredWordIsFetchedNext := by
  intro s x ⟨hrun, op, hop, hdec⟩ hx hipc hin
  have hexec : exec (.ldMemVx x) s.advance = .next (s.advance.storeBytes (s.advance.regsUpTo x)) := exec_ldMemVx_of_le hin
  refine ⟨(s.advance.storeBytes (s.advance.regsUpTo x)).finish, ?_, ?_, ?_, ?_⟩
  · rw [step_of_decoded hrun hop.fetch hdec, hexec, finishAnswer]
  · simpa using hrun
  · simpa using hipc.symm
  · exact (State.fetch_finish _).trans (s.advance.fetch_storeBytes_regsUpTo hx hipc.symm hin)

/-! ## The fetch above the memory -/

/-- Settles O8: such a fetch answers no word, and the fault leaves the block at its own pc. -/
theorem fetchAboveMemoryFaults : Obligations.FetchAboveMemoryFaults :=
  fun s hrun hpc => step_of_no_fetch hrun (s.fetch_of_gt hpc)

end Sys2Proof.Machine
end

section
/-! SUPPORT. The decoder and the encoder as inverses of each other, the opcode map as the decoder's table, and the words
that are no instruction, with the fault they raise (30_encoding.md R50 to R58). -/

namespace Sys2Proof.Laws.EncodedRow

theorem ofInstr : ∀ i : Instr, Statement i
  | .cls => cls
  | .ret => ret
  | .jp nnn => jp nnn
  | .call nnn => call nnn
  | .seImm x nn => seImm x nn
  | .sneImm x nn => sneImm x nn
  | .seReg x y => seReg x y
  | .ldImm x nn => ldImm x nn
  | .addImm x nn => addImm x nn
  | .ldReg x y => ldReg x y
  | .orReg x y => orReg x y
  | .andReg x y => andReg x y
  | .xorReg x y => xorReg x y
  | .addReg x y => addReg x y
  | .sub x y => sub x y
  | .shr x y => shr x y
  | .subn x y => subn x y
  | .shl x y => shl x y
  | .sneReg x y => sneReg x y
  | .ldI nnn => ldI nnn
  | .jpV0 nnn => jpV0 nnn
  | .rnd x nn => rnd x nn
  | .drw x y n => drw x y n
  | .skp x => skp x
  | .sknp x => sknp x
  | .ldVxDt x => ldVxDt x
  | .ldVxK x => ldVxK x
  | .ldDtVx x => ldDtVx x
  | .ldStVx x => ldStVx x
  | .addIVx x => addIVx x
  | .ldFVx x => ldFVx x
  | .ldBVx x => ldBVx x
  | .ldMemVx x => ldMemVx x
  | .ldVxMem x => ldVxMem x

end Sys2Proof.Laws.EncodedRow

namespace Sys2Proof

/-! ## Decoding an encoded instruction -/

/-- The first nibble of an encoding selects its group, and the fields come back (R54, R55). -/
theorem decodeWord_encode (i : Instr) : decodeWord (encode i) = some i := by
  cases i with
  | cls => rfl
  | ret => rfl
  | _ => simp [encode, decodeWord, decodeGroup8, decodeGroupE, decodeGroupF]

/-- The two bytes of a word are put together to that word again, and no byte after them is read (R39, R53). -/
theorem decode_bytesOfWord {op : Word} {i : Instr} (h : decodeWord op = some i) (rest : List Byte) :
    decode (bytesOfWord op ++ rest) = .ok (i, rest) := by
  simp [bytesOfWord, decode, h]

/-- Settles O1, by the word of the instruction, which decodes to it. -/
theorem decodeOfEncodeIsTheInstruction : Obligations.DecodeOfEncodeIsTheInstruction :=
  fun i => decode_bytesOfWord (decodeWord_encode i)

/-! ## Encoding a decoded word -/

section
variable {op : Word} {d n : BitVec 4}

theorem encNNN_of_fieldD1 (hd : fieldD1 op = d) : encNNN d (fieldNNN op) = op := hd ▸ encNNN_fields op

theorem encXNN_of_fieldD1 (hd : fieldD1 op = d) : encXNN d (fieldX op) (fieldNN op) = op := hd ▸ encXNN_fields op

theorem encXYN_of_fieldD1_fieldN (hd : fieldD1 op = d) (hn : fieldN op = n) :
    encXYN d (fieldX op) (fieldY op) n = op := hd ▸ hn ▸ encXYN_fields op
end

section
variable {op : Word} {x y : Reg} {n : BitVec 4} {nn : Byte} {i : Instr}

theorem encode_of_decodeGroup0 (h : decodeGroup0 op = some i) : encode i = op := by
  unfold decodeGroup0 at h
  split_ifs at h with hcls hret
  · cases h; exact hcls.symm
  · cases h; exact hret.symm

theorem encode_of_decodeGroup8 (h : decodeGroup8 x y n = some i) : encode i = encXYN 0x8 x y n := by
  unfold decodeGroup8 at h
  split at h <;> cases h <;> rfl

theorem encode_of_decodeGroupE (h : decodeGroupE x nn = some i) : encode i = encXNN 0xE x nn := by
  unfold decodeGroupE at h
  split at h <;> cases h <;> rfl

theorem encode_of_decodeGroupF (h : decodeGroupF x nn = some i) : encode i = encXNN 0xF x nn := by
  unfold decodeGroupF at h
  split at h <;> cases h <;> rfl
end

/-- Settles O2, by the decoder's branches: each keeps every field its pattern has beside the first nibble, and a word is
put together again from its fields. -/
theorem encodeOfDecodeIsTheWord : Obligations.EncodeOfDecodeIsTheWord := by
  intro op i h
  unfold decodeWord at h
  split at h
  next => exact encode_of_decodeGroup0 h
  next hd => cases h; exact encNNN_of_fieldD1 hd
  next hd => cases h; exact encNNN_of_fieldD1 hd
  next hd => cases h; exact encXNN_of_fieldD1 hd
  next hd => cases h; exact encXNN_of_fieldD1 hd
  next hd =>
    obtain ⟨hn, hi⟩ := Option.ite_none_right_eq_some.mp h
    cases hi
    exact encXYN_of_fieldD1_fieldN hd hn
  next hd => cases h; exact encXNN_of_fieldD1 hd
  next hd => cases h; exact encXNN_of_fieldD1 hd
  next hd => exact (encode_of_decodeGroup8 h).trans (encXYN_of_fieldD1_fieldN hd rfl)
  next hd =>
    obtain ⟨hn, hi⟩ := Option.ite_none_right_eq_some.mp h
    cases hi
    exact encXYN_of_fieldD1_fieldN hd hn
  next hd => cases h; exact encNNN_of_fieldD1 hd
  next hd => cases h; exact encNNN_of_fieldD1 hd
  next hd => cases h; exact encXNN_of_fieldD1 hd
  next hd => cases h; exact encXYN_of_fieldD1_fieldN hd rfl
  next hd => exact (encode_of_decodeGroupE h).trans (encXNN_of_fieldD1 hd)
  next hd => exact (encode_of_decodeGroupF h).trans (encXNN_of_fieldD1 hd)
  next => cases h

/-! ## What the decoder dispatches on -/

section
variable (x y x' y' : Reg)

theorem map_mnemonic_decodeGroup8 (n : BitVec 4) :
    (decodeGroup8 x y n).map Instr.mnemonic = (decodeGroup8 x' y' n).map Instr.mnemonic := by
  unfold decodeGroup8
  split <;> rfl

theorem map_mnemonic_decodeGroupE (nn : Byte) :
    (decodeGroupE x nn).map Instr.mnemonic = (decodeGroupE x' nn).map Instr.mnemonic := by
  unfold decodeGroupE
  split <;> rfl

theorem map_mnemonic_decodeGroupF (nn : Byte) :
    (decodeGroupF x nn).map Instr.mnemonic = (decodeGroupF x' nn).map Instr.mnemonic := by
  unfold decodeGroupF
  split <;> rfl
end

/-- Which instruction a word is, if any, depends only on its first nibble and on what the group of that nibble dispatches
on: the whole word, the last nibble, the low byte, or nothing more (R55). -/
theorem map_mnemonic_decodeWord_congr {op w : Word} (hd : fieldD1 op = fieldD1 w) (h0 : fieldD1 w = 0x0#4 → op = w)
    (hn : fieldD1 w ∈ [0x5#4, 0x8#4, 0x9#4] → fieldN op = fieldN w)
    (hnn : fieldD1 w ∈ [0xE#4, 0xF#4] → fieldNN op = fieldNN w) :
    (decodeWord op).map Instr.mnemonic = (decodeWord w).map Instr.mnemonic := by
  unfold decodeWord
  rw [hd]
  split
  next hw => rw [h0 hw]
  next => rfl
  next => rfl
  next => rfl
  next => rfl
  next hw => rw [hn (by simp [hw])]; split <;> rfl
  next => rfl
  next => rfl
  next hw => rw [hn (by simp [hw])]; exact map_mnemonic_decodeGroup8 ..
  next hw => rw [hn (by simp [hw])]; split <;> rfl
  next => rfl
  next => rfl
  next => rfl
  next => rfl
  next hw => rw [hnn (by simp [hw])]; exact map_mnemonic_decodeGroupE ..
  next hw => rw [hnn (by simp [hw])]; exact map_mnemonic_decodeGroupF ..
  next => rfl

/-! ## The opcode map -/

/-- A mask that keeps a field whole makes words that agree under it agree in that field. -/
theorem extractLsb'_eq_of_and_eq {op w m : Word} {start len : Nat} (h : op &&& m = w &&& m)
    (hm : m.extractLsb' start len = BitVec.allOnes len) : op.extractLsb' start len = w.extractLsb' start len := by
  simpa [BitVec.extractLsb'_and, hm] using congrArg (BitVec.extractLsb' start len) h

/-- The mask of a row keeps whatever the decoder dispatches on for the first nibble of that row. -/
theorem opcodeMap_mask : ∀ r ∈ opcodeMap, fieldD1 r.mask = BitVec.allOnes 4 ∧
    (fieldD1 r.pattern = 0x0#4 → r.mask = BitVec.allOnes 16) ∧
    (fieldD1 r.pattern ∈ [0x5#4, 0x8#4, 0x9#4] → fieldN r.mask = BitVec.allOnes 4) ∧
    (fieldD1 r.pattern ∈ [0xE#4, 0xF#4] → fieldNN r.mask = BitVec.allOnes 8) := by decide

/-- The pattern of a row is a word the row selects, and decodes to its instruction. -/
theorem opcodeMap_pattern : ∀ r ∈ opcodeMap,
    r.selects r.pattern ∧ (decodeWord r.pattern).map Instr.mnemonic = some r.mnemonic := by decide

theorem opcodeMap_mnemonic_inj : ∀ r ∈ opcodeMap, ∀ q ∈ opcodeMap, r.mnemonic = q.mnemonic → r = q := by decide

/-- A word that a row selects agrees with the row's pattern in all that the decoder dispatches on. -/
theorem map_mnemonic_decodeWord_of_selects {r : OpRow} (hr : r ∈ opcodeMap) {op : Word} (h : r.selects op) :
    (decodeWord op).map Instr.mnemonic = some r.mnemonic := by
  obtain ⟨hd, h0, hn, hnn⟩ := opcodeMap_mask r hr
  obtain ⟨hpat, hmn⟩ := opcodeMap_pattern r hr
  have heq : op &&& r.mask = r.pattern &&& r.mask := h.trans hpat.symm
  rw [← hmn]
  refine map_mnemonic_decodeWord_congr (extractLsb'_eq_of_and_eq heq hd) (fun hw => ?_)
    (fun hw => extractLsb'_eq_of_and_eq heq (hn hw)) (fun hw => extractLsb'_eq_of_and_eq heq (hnn hw))
  rwa [h0 hw, BitVec.and_allOnes, BitVec.and_allOnes] at heq

/-- Settles O3: the mnemonic of a selected word is the row's; a word that decodes is an encoding, which the one row of
its mnemonic selects; and so rows that select the same word have the same mnemonic. -/
theorem opcodeMapSelectsTheInstruction : Obligations.OpcodeMapSelectsTheInstruction := by
  refine ⟨rfl, fun r hr op => ⟨fun h => ?_, fun ⟨i, hdec, hmn⟩ => ?_⟩, fun r hr q hq op hrop hqop => ?_⟩
  · exact Option.map_eq_some_iff.mp (map_mnemonic_decodeWord_of_selects hr h)
  · obtain ⟨q, hq, hqi, hsel⟩ := Laws.EncodedRow.ofInstr i
    obtain rfl := opcodeMap_mnemonic_inj q hq r hr (hqi.trans hmn)
    rwa [encodeOfDecodeIsTheWord op i hdec] at hsel
  · refine opcodeMap_mnemonic_inj r hr q hq (Option.some.inj ?_)
    rw [← map_mnemonic_decodeWord_of_selects hr hrop, map_mnemonic_decodeWord_of_selects hq hqop]

/-! ## The unimplemented words -/

theorem nibble_cases : ∀ d : BitVec 4, d = 0x0#4 ∨ d = 0x1#4 ∨ d = 0x2#4 ∨ d = 0x3#4 ∨ d = 0x4#4 ∨ d = 0x5#4 ∨
    d = 0x6#4 ∨ d = 0x7#4 ∨ d = 0x8#4 ∨ d = 0x9#4 ∨ d = 0xA#4 ∨ d = 0xB#4 ∨ d = 0xC#4 ∨ d = 0xD#4 ∨ d = 0xE#4 ∨
    d = 0xF#4 := by
  decide

section
variable {op : Word} {x y : Reg} {n : BitVec 4} {nn : Byte}

theorem decodeGroup0_eq_none_iff : decodeGroup0 op = none ↔ op ≠ 0x00E0#16 ∧ op ≠ 0x00EE#16 := by
  unfold decodeGroup0
  split_ifs <;> simp_all

theorem decodeGroup8_eq_none_iff :
    decodeGroup8 x y n = none ↔ n ∈ [0x8#4, 0x9#4, 0xA#4, 0xB#4, 0xC#4, 0xD#4, 0xF#4] := by
  obtain rfl | rfl | rfl | rfl | rfl | rfl | rfl | rfl | rfl | rfl | rfl | rfl | rfl | rfl | rfl | rfl :=
    nibble_cases n <;> simp [decodeGroup8]

theorem decodeGroupE_eq_none_iff : decodeGroupE x nn = none ↔ nn ∉ [0x9E#8, 0xA1#8] := by
  unfold decodeGroupE
  split <;> simp_all

theorem decodeGroupF_eq_none_iff : decodeGroupF x nn = none ↔
    nn ∉ [0x07#8, 0x0A#8, 0x15#8, 0x18#8, 0x1E#8, 0x29#8, 0x33#8, 0x55#8, 0x65#8] := by
  unfold decodeGroupF
  split <;> simp_all
end

/-- Settles O4, by the first nibble: groups 5 and 9 test the last nibble, groups 0, 8, E and F have the words listed for
each above, and the other groups decode every word. -/
theorem unimplementedWordsAreExactlyTheListedSets : Obligations.UnimplementedWordsAreExactlyTheListedSets := by
  intro op
  obtain hd | hd | hd | hd | hd | hd | hd | hd | hd | hd | hd | hd | hd | hd | hd | hd := nibble_cases (fieldD1 op) <;>
    simp [decodeWord, hd, decodeGroup0_eq_none_iff, decodeGroup8_eq_none_iff, decodeGroupE_eq_none_iff,
      decodeGroupF_eq_none_iff]

/-! ## Example words -/

/-- Settles O5: the twelve words are the encodings of their instructions, and the other two are in the listed sets. -/
theorem exampleWordsDecode : Obligations.ExampleWordsDecode :=
  ⟨decodeWord_encode .cls, decodeWord_encode .ret, decodeWord_encode (.jp 0x234), decodeWord_encode (.seImm 3 0x12),
    decodeWord_encode (.sneReg 1 2), decodeWord_encode (.shr 3 5), decodeWord_encode (.rnd 0 0x0F),
    decodeWord_encode (.ldI 0x2F0), decodeWord_encode (.ldVxMem 2), decodeWord_encode (.drw 0 1 5),
    decodeWord_encode (.skp 1), decodeWord_encode (.ldStVx 1),
    (unimplementedWordsAreExactlyTheListedSets 0x5121).mpr (by decide),
    (unimplementedWordsAreExactlyTheListedSets 0x0123).mpr (by decide)⟩

end Sys2Proof

namespace Sys2Proof.Machine

/-- Settles O9: the fetch answers the word at pc, and the fault leaves the block at its own pc. -/
theorem unimplementedWordFaults : Obligations.UnimplementedWordFaults :=
  fun _ _ hrun hop hdec => step_of_undecoded hrun hop.fetch hdec

end Sys2Proof.Machine
end

section
/-! SUPPORT. The cycle of a decoded instruction, and a jump to its own address over any schedule of cycles and keys
(40_cycle.md R60, R61, R66; 41_control_flow.md R69; 46_timers.md R110). -/

namespace Sys2Proof.Machine

/-! ## The end of a cycle -/

theorem tickDown_eq (b : Byte) : tickDown b = if b = 0 then 0 else b - 1 := by
  by_cases hb : b = 0
  · rw [hb]; rfl
  · have hpos : 0 < b.toNat := Nat.pos_of_ne_zero fun h0 => hb (BitVec.eq_of_toNat_eq h0)
    rw [tickDown, if_pos hpos, if_neg hb]

/-- The end of a cycle ticks both timers of a block still Running, and leaves a Halted one as it is (R110, R118). -/
theorem State.finish_eq (t : State) : t.finish = if t.run = .running then
    { t with dt := if t.dt = 0 then 0 else t.dt - 1, st := if t.st = 0 then 0 else t.st - 1 } else t := by
  unfold State.finish
  split
  next hrun => rw [if_pos hrun, State.tick, tickDown_eq, tickDown_eq]
  next f hrun => rw [if_neg (by simp [hrun])]

/-- Settles O6: the cycle ends on what the decoded instruction answers. -/
theorem stepRunsTheDecodedInstruction : Obligations.StepRunsTheDecodedInstruction := by
  intro s t op i hrun hop hdec hexec
  have hexec : exec i s.advance = .next t := hexec
  rw [step_of_decoded hrun hop.fetch hdec, hexec, finishAnswer, State.finish_eq]

/-! ## What a frame keeps of the instruction at pc -/

theorem OnlyChanges.refl (parts : List Part) (s : State) : OnlyChanges parts s s := by
  intro p _; cases p <;> simp [Part.same]

/-- What runs next depends on the run state, pc and the memory alone. -/
theorem RunsNext.of_onlyChanges {s t : State} {i : Instr} {parts : List Part} (h : RunsNext s i)
    (hst : OnlyChanges parts s t) (hrun : Part.run ∉ parts) (hpc : Part.pc ∉ parts) (hmem : Part.mem ∉ parts) :
    RunsNext t i := by
  obtain ⟨hs, op, ⟨hle, hhi, hlo⟩, hdec⟩ := h
  have hpc : t.pc = s.pc := hst .pc hpc
  have hmem : ∀ a, t.readByte a = s.readByte a := hst .mem hmem
  refine ⟨(hst .run hrun).trans hs, op, ⟨?_, ?_, ?_⟩, hdec⟩
  · rwa [hpc]
  · rwa [hpc, hmem]
  · rwa [hpc, hmem]

/-! ## A jump to its own address -/

/-- The jump puts the advanced pc back, so all that its cycle leaves is the tick (R61, R69, R110). -/
theorem RunsNext.step_jp_self {s : State} {nnn : BitVec 12} (h : RunsNext s (.jp nnn)) (hpc : s.pc.toNat = nnn.toNat) :
    step s = .next s.tick := by
  obtain ⟨hrun, op, hop, hdec⟩ := h
  have htarget : addrWord nnn = s.pc := BitVec.eq_of_toNat_eq (by rw [hpc, BitVec.toNat_setWidth]; omega)
  have hback : s.advance.setPc (addrWord nnn) = s := by rw [htarget]; rfl
  rw [step_of_decoded hrun hop.fetch hdec, exec, execJp, hback, finishAnswer, s.finish_of_running hrun]

theorem State.onlyChanges_tick (s : State) : OnlyChanges [.dt, .st] s s.tick :=
  (s.onlyChanges_dt _).trans (State.onlyChanges_st { s with dt := tickDown s.dt } _)

/-- A `set_key` call leaves everything but the keys, whether it is carried out or refused (R31). -/
theorem State.after_setKey_eq (s : State) (index : Nat) (pressed : Bool) :
    ∃ key, s.after (.setKey index pressed) = { s with key := key } := by
  obtain h | ⟨ho, -⟩ | ⟨_, _, _, -, h⟩ := s.after_cases (o := .setKey index pressed) rfl
  · exact ⟨s.key, h⟩
  · cases ho
  · exact ⟨_, h⟩

/-- Settles O60, by induction on the schedule: a tick and a change of keys both leave the same jump to run next. -/
theorem jumpToItselfRunsForAsLongAsTheHostCalls : Obligations.JumpToItselfRunsForAsLongAsTheHostCalls := by
  intro s nnn ops hnext hpc hops
  induction ops generalizing s with
  | nil => exact ⟨OnlyChanges.refl _ s, rfl, rfl⟩
  | cons o ops ih =>
    obtain ⟨ho, hrest⟩ := List.forall_mem_cons.1 hops
    cases o with
    | new | load => cases ho
    | cycle =>
      have htick := s.onlyChanges_tick
      obtain ⟨frame, hdt, hst⟩ := ih s.tick (hnext.of_onlyChanges htick (by simp) (by simp) (by simp)) hpc hrest
      rw [session_cons, State.after_of_next (o := .cycle) (hnext.step_jp_self hpc), hdt, hst, List.count_cons_self,
        State.tick_dt, State.tick_st, tickDown_toNat, tickDown_toNat]
      exact ⟨(htick.trans frame).mono (by simp), by omega, by omega⟩
    | setKey index pressed =>
      obtain ⟨key, hkey⟩ := s.after_setKey_eq index pressed
      have hset := s.onlyChanges_key key
      obtain ⟨frame, hdt, hst⟩ :=
        ih { s with key := key } (hnext.of_onlyChanges hset (by simp) (by simp) (by simp)) hpc hrest
      have hne : HostOp.setKey index pressed ≠ .cycle := nofun
      rw [session_cons, hkey, List.count_cons_of_ne hne]
      exact ⟨(hset.trans frame).mono (by simp), hdt, hst⟩

end Sys2Proof.Machine
end

section
/-! SUPPORT. The control-flow instructions: jumps, call and return with their faults, the skips, and a call with the return
at its target (41_control_flow.md R67 to R76; 60_exceptions.md R117, R118). -/

namespace Sys2Proof.Machine

/-! ## Encodings in the words of the statements -/

theorem ofFin_eq_nibble (x : Reg) : BitVec.ofFin (w := 4) x = nibble x :=
  BitVec.eq_of_toNat_eq (Nat.mod_eq_of_lt x.isLt).symm

theorem encXNN_eq_append_nibble (d : BitVec 4) (x : Reg) (nn : Byte) : encXNN d x nn = d ++ nibble x ++ nn := by
  rw [encXNN, ofFin_eq_nibble]

theorem encXYN_eq_append_nibble (d : BitVec 4) (x y : Reg) (n : BitVec 4) :
    encXYN d x y n = d ++ nibble x ++ nibble y ++ n := by
  rw [encXYN, ofFin_eq_nibble, ofFin_eq_nibble]

/-- Groups 5 and 9 decode nothing where the last nibble is not 0 (R57, R75, R76). -/
theorem decodeWord_encXYN_eq_none {d n : BitVec 4} (x y : Reg) (hd : d = 0x5#4 ∨ d = 0x9#4) (hn : n ≠ 0) :
    decodeWord (encXYN d x y n) = none := by
  have hfield : fieldN (encXYN d x y n) ≠ 0 := by rwa [fieldN_encXYN]
  refine (unimplementedWordsAreExactlyTheListedSets _).mpr ?_
  obtain rfl | rfl := hd
  · exact .inr (.inl ⟨fieldD1_encXYN .., hfield⟩)
  · exact .inr (.inr (.inr (.inl ⟨fieldD1_encXYN .., hfield⟩)))

/-! ## The targets of jumps, and the pc after a skip -/

theorem toNat_addrWord (nnn : BitVec 12) : (addrWord nnn).toNat = nnn.toNat := by
  rw [BitVec.toNat_setWidth]; omega

/-- V0 + nnn fits into 16 bits, so the sum is not reduced (R71). -/
theorem State.toNat_offsetTarget (s : State) (nnn : BitVec 12) :
    (s.offsetTarget nnn).toNat = (s.getV 0).toNat + nnn.toNat := by
  have hv := (s.getV 0).isLt
  rw [State.offsetTarget, BitVec.toNat_add, toNat_addrWord, BitVec.toNat_setWidth]
  omega

theorem State.skipIf_beq_pc (s : State) (a b : Byte) :
    (s.skipIf (a == b)).pc = if a = b then s.pc + 2 else s.pc := by
  simp only [State.skipIf_pc, beq_iff_eq]

theorem State.skipIf_bne_pc (s : State) (a b : Byte) :
    (s.skipIf (a != b)).pc = if a = b then s.pc else s.pc + 2 := by
  simp only [State.skipIf_pc, bne_iff_ne, ite_not]

/-! ## Jumps -/

/-- Settles O22, by the meaning of the jump, one write of pc. -/
theorem jumpGoesToNnn : Obligations.JumpGoesToNnn := fun nnn s =>
  ⟨decodeWord_encode (.jp nnn), _, rfl, toNat_addrWord nnn, s.onlyChanges_setPc _⟩

/-- Settles O23, by the target of the jump, a sum that does not overflow. -/
theorem jumpWithOffsetGoesToV0PlusNnn : Obligations.JumpWithOffsetGoesToV0PlusNnn := fun nnn s =>
  ⟨decodeWord_encode (.jpV0 nnn), _, rfl, s.toNat_offsetTarget nnn, s.onlyChanges_setPc _⟩

/-! ## Skips -/

/-- Settles O27: each skip is one conditional write of pc. -/
theorem immediateSkipsAddTwo : Obligations.ImmediateSkipsAddTwo := by
  intro x nn s
  simp only [← encXNN_eq_append_nibble]
  exact ⟨decodeWord_encode (.seImm x nn), decodeWord_encode (.sneImm x nn),
    ⟨_, rfl, s.skipIf_beq_pc _ _, s.onlyChanges_skipIf _⟩,
    ⟨_, rfl, s.skipIf_bne_pc _ _, s.onlyChanges_skipIf _⟩⟩

/-- Settles O28: each skip is one conditional write of pc, and its word needs the last nibble 0. -/
theorem registerSkipsAddTwo : Obligations.RegisterSkipsAddTwo := by
  intro x y s
  simp only [← encXYN_eq_append_nibble]
  exact ⟨fun n hn => ⟨decodeWord_encXYN_eq_none x y (.inl rfl) hn, decodeWord_encXYN_eq_none x y (.inr rfl) hn⟩,
    decodeWord_encode (.seReg x y), decodeWord_encode (.sneReg x y),
    ⟨_, rfl, s.skipIf_beq_pc _ _, s.onlyChanges_skipIf _⟩,
    ⟨_, rfl, s.skipIf_bne_pc _ _, s.onlyChanges_skipIf _⟩⟩

/-! ## Call and return -/

/-- An instruction that raises a fault takes it as R118 says. -/
theorem State.takesFault_raiseFault (s : State) (code : FaultCode) (op d : Word) :
    TakesFault code op d s (s.raiseFault code op d) :=
  ⟨s.onlyChanges_raiseFault code op d, rfl, rfl⟩

section
variable {s : State}

theorem exec_call_of_lt (nnn : BitVec 12) (h : s.sp.toNat < 16) : exec (.call nnn) s =
    .next (State.setPc { s with stack := s.stack.set s.sp.toNat s.pc, sp := s.sp + 1 } (addrWord nnn)) := by
  rw [exec, execCall, s.push_of_lt s.pc h]

theorem exec_call_of_ge (nnn : BitVec 12) (h : 16 ≤ s.sp.toNat) :
    exec (.call nnn) s = .next (s.raiseFault .stackOverflow (encode (.call nnn)) 0) := by
  rw [exec, execCall, s.push_of_ge s.pc h]

theorem exec_ret_of_pos (h0 : 0 < s.sp.toNat) (h : s.sp.toNat ≤ 16) :
    exec .ret s = .next (State.setPc { s with sp := s.sp - 1 } s.stack[s.sp.toNat - 1]) := by
  rw [exec, execRet, s.pop_of_pos h0 h]

theorem exec_ret_of_zero (h : s.sp.toNat = 0) :
    exec .ret s = .next (s.raiseFault .stackUnderflow (encode .ret) 0) := by
  rw [exec, execRet, s.pop_of_zero h]
end

/-- Settles O24: below 16 the push writes the slot SP and moves SP, and at 16 there is no push. -/
theorem callPushesThePcOrOverflows : Obligations.CallPushesThePcOrOverflows := by
  refine fun nnn s => ⟨decodeWord_encode (.call nnn), fun h => ⟨_, exec_call_of_lt nnn h, ?_, ?_, ?_, ?_, ?_⟩,
    fun h => ⟨_, exec_call_of_ge nnn h.ge, s.takesFault_raiseFault _ _ _⟩⟩
  · exact toNat_addrWord nnn
  · exact Vector.getElem_set_self h
  · exact fun k hk => Vector.getElem_set_ne h k.isLt hk.symm
  · rw [State.setPc_sp]; bv_omega
  · exact ((s.onlyChanges_stack_sp _ _).trans (State.onlyChanges_setPc _ _)).mono (by simp)

/-- Settles O25: with SP in 1..16 the pop reads the slot SP - 1 and moves SP, and at 0 there is no pop. -/
theorem returnPopsThePcOrUnderflows : Obligations.ReturnPopsThePcOrUnderflows := by
  refine ⟨decodeWord_encode .ret, fun s => ⟨fun h0 h => ⟨_, exec_ret_of_pos h0 h, rfl, ?_, ?_⟩,
    fun h => ⟨_, exec_ret_of_zero h, s.takesFault_raiseFault _ _ _⟩⟩⟩
  · rw [State.setPc_sp]; bv_omega
  · exact ((s.onlyChanges_sp _).trans (State.onlyChanges_setPc _ _)).mono (by simp)

/-! ## A call and the return at its target -/

/-- A cycle of a decoded instruction whose execution answers u ends in u's end of the cycle (R60). -/
theorem RunsNext.step_of_exec {s u : State} {i : Instr} (h : RunsNext s i) (hu : exec i s.advance = .next u) :
    step s = .next u.finish := by
  obtain ⟨hrun, op, hop, hdec⟩ := h
  rw [step_of_decoded hrun hop.fetch hdec, hu, finishAnswer]

/-- The cycle of a call with SP below 16 (R70): the block, still Running, is at the target, with the address after the call
in the slot SP, SP one more and the memory as it was. -/
theorem RunsNext.step_call {s : State} {nnn : BitVec 12} (h : RunsNext s (.call nnn)) (hsp : s.sp.toNat < 16) :
    ∃ t, step s = .next t ∧ t.run = .running ∧ t.pc.toNat = nnn.toNat ∧ t.stack[s.sp.toNat] = s.pc + 2 ∧
      t.sp.toNat = s.sp.toNat + 1 ∧ ∀ a, t.readByte a = s.readByte a := by
  have ⟨hrun, _⟩ := h
  obtain ⟨-, hcall, -⟩ := callPushesThePcOrOverflows nnn s.advance
  obtain ⟨t, hexec, hpc, hslot, -, hsp', frame⟩ := hcall hsp
  refine ⟨t.finish, h.step_of_exec hexec, ?_, ?_, ?_, ?_, fun a => ?_⟩
  · rw [State.finish_run]; exact (frame .run (by simp)).trans hrun
  · rw [State.finish_pc, hpc]
  · simpa using hslot
  · rw [State.finish_sp, hsp']; rfl
  · exact (State.readByte_finish t a).trans (frame .mem (by simp) a)

/-- The cycle of a return with SP = n + 1 (R68): the block, still Running, is at the address in the slot n, with SP = n. -/
theorem RunsNext.step_ret {s : State} {n : Nat} (h : RunsNext s .ret) (hsp : s.sp.toNat = n + 1) (hn : n < 16) :
    ∃ t, step s = .next t ∧ t.run = .running ∧ t.pc = s.stack[n] ∧ t.sp.toNat = n := by
  have ⟨hrun, _⟩ := h
  obtain ⟨hret, -⟩ := returnPopsThePcOrUnderflows.2 s.advance
  obtain ⟨t, hexec, hpc, hsp', frame⟩ := hret (by rw [State.advance_sp]; omega) (by rw [State.advance_sp]; omega)
  refine ⟨t.finish, h.step_of_exec hexec, ?_, ?_, ?_⟩
  · rw [State.finish_run]; exact (frame .run (by simp)).trans hrun
  · simpa [hsp] using hpc
  · rw [State.finish_sp, hsp', State.advance_sp, hsp, Nat.add_sub_cancel]

/-- Settles O26: the call keeps the memory, so the return at its target runs next, and it pops the slot the call wrote. -/
theorem callThenReturnComesBack : Obligations.CallThenReturnComesBack := by
  intro s nnn hnext hsp hnnn hhi hlo
  obtain ⟨t, hst, hrun, hpc, hslot, htsp, hmem⟩ := hnext.step_call hsp
  have hret : RunsNext t .ret := by
    refine ⟨hrun, encode .ret, ⟨?_, ?_, ?_⟩, decodeWord_encode .ret⟩ <;> rw [hpc]
    · exact hnnn
    · rw [hmem, hhi]; rfl
    · rw [hmem, hlo]; rfl
  obtain ⟨u, htu, hurun, hupc, husp⟩ := hret.step_ret htsp hsp
  exact ⟨t, u, hst, htu, hupc.trans hslot, BitVec.eq_of_toNat_eq husp, hurun⟩

end Sys2Proof.Machine
end

section
/-! SUPPORT. The register instructions: the flags and the results of the ALU as numbers, the registers an ALU step keeps,
and from them loads, arithmetic, logic, shifts and random (42_alu.md R77 to R92). -/

namespace Sys2Proof.Machine

/-! ## Flags as numbers -/

theorem flagByte_decide (p : Prop) [Decidable p] : flagByte (decide p) = if p then 1 else 0 := by
  simp [flagByte]

@[simp] theorem toNat_flagByte (c : Bool) : (flagByte c).toNat = c.toNat := by
  cases c <;> rfl

/-- The bit that `8xy6` shifts out (R90). -/
theorem toNat_shrFlag (a : Byte) : (shrFlag a).toNat = a.toNat % 2 := by
  rw [shrFlag, toNat_flagByte, BitVec.getLsbD, Nat.toNat_testBit, Nat.pow_zero, Nat.div_one]

/-- The bit that `8xyE` shifts out (R91). -/
theorem toNat_shlFlag (a : Byte) : (shlFlag a).toNat = a.toNat / 128 % 2 := by
  rw [shlFlag, toNat_flagByte, BitVec.getLsbD, Nat.toNat_testBit]

/-! ## Results as numbers -/

/-- A difference wraps modulo 256 and stays in 0..255 (R88, R89). -/
theorem Byte.toNat_sub_emod (a b : Byte) : ((a - b).toNat : Int) = ((a.toNat : Int) - (b.toNat : Int)) % 256 := by
  rw [BitVec.toNat_sub]
  omega

theorem Byte.toNat_shiftRight_one (a : Byte) : (a >>> 1).toNat = a.toNat / 2 := by
  rw [BitVec.toNat_ushiftRight, Nat.shiftRight_one]

theorem Byte.toNat_shiftLeft_one (a : Byte) : (a <<< 1).toNat = 2 * a.toNat % 256 := by
  rw [BitVec.toNat_shiftLeft, Nat.shiftLeft_eq_mul_pow, Nat.pow_one, Nat.mul_comm]

/-! ## The registers a write and an ALU step keep -/

section
variable (s : State) (x : Reg) (b : Byte)

theorem State.regsKeptBut_setV : RegsKeptBut [x] s (s.setV x b) :=
  fun r hr => s.getV_setV_other x r b (mt List.mem_singleton.2 hr)

/-- An operation without a flag keeps VF, where it is not the destination (R80). -/
theorem State.regsKeptBut_aluStep_noFlag {op : AluOp} (hf : (alu op (s.getV x) b).2 = none) :
    RegsKeptBut [x] s (s.aluStep op x b) :=
  fun _ hr => s.getV_aluStep_noFlag op x b hf (mt List.mem_singleton.2 hr)

theorem State.regsKeptBut_aluStep (op : AluOp) : RegsKeptBut [x, 15] s (s.aluStep op x b) := by
  intro r hr
  obtain ⟨hx, hvf⟩ : r ≠ x ∧ r ≠ 15 := by simpa using hr
  exact s.getV_aluStep_other op x b hx hvf

end

/-! ## Instructions without a flag -/

/-- Settles O29: both loads are the ALU step that moves its second operand. -/
theorem registerLoadsCopyTheOperand : Obligations.RegisterLoadsCopyTheOperand := by
  intro x y nn s
  rw [← encXNN_eq_append_nibble, ← encXYN_eq_append_nibble]
  exact ⟨decodeWord_encode (.ldImm x nn), decodeWord_encode (.ldReg x y),
    ⟨_, rfl, s.getV_aluStep_dest .mov x _, s.regsKeptBut_aluStep_noFlag x _ rfl, s.onlyChanges_aluStep _ _ _⟩,
    ⟨_, rfl, s.getV_aluStep_dest .mov x _, s.regsKeptBut_aluStep_noFlag x _ rfl, s.onlyChanges_aluStep _ _ _⟩⟩

/-- Settles O30: the step for an immediate add has no flag to write. -/
theorem addImmediateWrapsWithoutCarry : Obligations.AddImmediateWrapsWithoutCarry := by
  intro x nn s
  rw [← encXNN_eq_append_nibble]
  refine ⟨decodeWord_encode (.addImm x nn), _, rfl, ?_, s.regsKeptBut_aluStep_noFlag x _ rfl, s.onlyChanges_aluStep _ _ _⟩
  rw [s.getV_aluStep_dest .addi x nn]
  exact BitVec.toNat_add _ _

/-- Settles O31: the three words take the same path, and the bits of the results are the operations' own. -/
theorem logicWorksBitByBit : Obligations.LogicWorksBitByBit := by
  intro x y s
  simp only [← encXYN_eq_append_nibble]
  refine ⟨decodeWord_encode (.orReg x y), decodeWord_encode (.andReg x y), decodeWord_encode (.xorReg x y),
    ⟨_, rfl, s.regsKeptBut_aluStep_noFlag x _ rfl, s.onlyChanges_aluStep _ _ _, fun k => ?_⟩,
    ⟨_, rfl, s.regsKeptBut_aluStep_noFlag x _ rfl, s.onlyChanges_aluStep _ _ _, fun k => ?_⟩,
    ⟨_, rfl, s.regsKeptBut_aluStep_noFlag x _ rfl, s.onlyChanges_aluStep _ _ _, fun k => ?_⟩⟩
  · rw [s.getV_aluStep_dest .or x]; exact BitVec.getLsbD_or
  · rw [s.getV_aluStep_dest .and x]; exact BitVec.getLsbD_and
  · rw [s.getV_aluStep_dest .xor x]; exact BitVec.getLsbD_xor

/-! ## Instructions with a flag -/

/-- Settles O32: the sum is written after the carry, which is the ninth bit of the old operands' sum. -/
theorem addSetsVFToTheCarry : Obligations.AddSetsVFToTheCarry := by
  intro x y s
  rw [← encXYN_eq_append_nibble]
  refine ⟨decodeWord_encode (.addReg x y), _, rfl, ?_, fun hx => ?_, s.regsKeptBut_aluStep x _ .add,
    s.onlyChanges_aluStep _ _ _⟩
  · rw [s.getV_aluStep_dest .add x]; exact BitVec.toNat_add _ _
  · exact (s.getV_aluStep_vf .add x _ hx rfl).trans (flagByte_decide _)

/-- Settles O33: the difference is written after the flag, a strict comparison of the old operands. -/
theorem subSetsVFWhenVxIsGreater : Obligations.SubSetsVFWhenVxIsGreater := by
  intro x y s
  rw [← encXYN_eq_append_nibble]
  refine ⟨decodeWord_encode (.sub x y), _, rfl, ?_, fun hx => ?_, s.regsKeptBut_aluStep x _ .sub,
    s.onlyChanges_aluStep _ _ _⟩
  · rw [s.getV_aluStep_dest .sub x]; exact Byte.toNat_sub_emod _ _
  · exact (s.getV_aluStep_vf .sub x _ hx rfl).trans (flagByte_decide _)

/-- Settles O34: as for O33, with the operands in the other order in the difference and in the flag. -/
theorem subnSetsVFWhenVyIsGreater : Obligations.SubnSetsVFWhenVyIsGreater := by
  intro x y s
  rw [← encXYN_eq_append_nibble]
  refine ⟨decodeWord_encode (.subn x y), _, rfl, ?_, fun hx => ?_, s.regsKeptBut_aluStep x _ .subn,
    s.onlyChanges_aluStep _ _ _⟩
  · rw [s.getV_aluStep_dest .subn x]; exact Byte.toNat_sub_emod _ _
  · exact (s.getV_aluStep_vf .subn x _ hx rfl).trans (flagByte_decide _)

/-- Settles O35: neither shift reads y, and the flag is the end bit of the old Vx. -/
theorem shiftsSetVFToTheBitShiftedOut : Obligations.ShiftsSetVFToTheBitShiftedOut := by
  intro x y s
  simp only [← encXYN_eq_append_nibble]
  refine ⟨decodeWord_encode (.shr x y), decodeWord_encode (.shl x y),
    ⟨_, rfl, ?_, fun hx => ?_, s.regsKeptBut_aluStep x _ .shr, s.onlyChanges_aluStep _ _ _⟩,
    ⟨_, rfl, ?_, fun hx => ?_, s.regsKeptBut_aluStep x _ .shl, s.onlyChanges_aluStep _ _ _⟩⟩
  · rw [s.getV_aluStep_dest .shr x]; exact Byte.toNat_shiftRight_one _
  · rw [s.getV_aluStep_vf .shr x _ hx rfl, toNat_shrFlag]
  · rw [s.getV_aluStep_dest .shl x]; exact Byte.toNat_shiftLeft_one _
  · rw [s.getV_aluStep_vf .shl x _ hx rfl, toNat_shlFlag]

/-! ## Random -/

/-- Settles O36: the draw counts itself first, then Vx takes the byte under the mask. -/
theorem randomIsOneFreshDrawUnderTheMask : Obligations.RandomIsOneFreshDrawUnderTheMask := by
  intro x nn s
  rw [← encXNN_eq_append_nibble]
  have hexec : exec (.rnd x nn) s = .next (s.drawRand.2.setV x (Config.randomByte s.draws &&& nn)) := rfl
  refine ⟨decodeWord_encode (.rnd x nn), _, hexec, fun k => ?_, (exec_font_draws hexec).2,
    s.drawRand.2.regsKeptBut_setV x _, (exec_onlyChanges hexec).mono (by simp [touchedParts])⟩
  rw [State.getV_setV_same, BitVec.getLsbD_and]

end Sys2Proof.Machine
end

section
/-! SUPPORT. The index register and the memory transfers: the values I takes, the fault of a range that leaves the memory,
the digits of `Fx33`, and the registers that `Fx55` stores and `Fx65` loads (43_index_memory.md R93 to R99). -/

namespace Sys2Proof.Machine

/-! ## The writes of I -/

/-- The sum wraps modulo 65536 (R95). -/
theorem Word.toNat_add_toWord (a : Word) (b : Byte) : (a + b.toWord).toNat = (a.toNat + b.toNat) % 65536 := by
  rw [BitVec.toNat_add, BitVec.toNat_setWidth_of_le (by decide)]

/-- The glyph address fits into 16 bits for every byte, so nothing is reduced (R96). -/
theorem toNat_glyphAddr (b : Byte) : (glyphAddr b).toNat = 0x050 + 5 * b.toNat := by
  rw [glyphAddr]
  bv_omega

/-- Settles O37: each of the three is one write of I. -/
theorem indexInstructionsWriteI : Obligations.IndexInstructionsWriteI := by
  intro nnn x s
  simp only [← encXNN_eq_append_nibble]
  exact ⟨decodeWord_encode (.ldI nnn), decodeWord_encode (.addIVx x), decodeWord_encode (.ldFVx x),
    ⟨_, rfl, toNat_addrWord nnn, s.onlyChanges_setI _⟩,
    ⟨_, rfl, Word.toNat_add_toWord s.i (s.getV x), s.onlyChanges_setI _⟩,
    ⟨_, rfl, toNat_glyphAddr (s.getV x), s.onlyChanges_setI _⟩⟩

/-! ## A range that leaves the memory -/

/-- An instruction that checks the n + 1 bytes from I on and raises the address it finds takes the fault of R93 where the
last of them is above 0xFFF. -/
theorem exec_takesMemoryFault {i : Instr} {s : State} {n : Nat} (h : s.i.toNat + n > 0xFFF)
    (hcheck : ∀ a, s.rangeFault (n + 1) = some a → exec i s = .next (s.raiseFault .memoryOutOfRange (encode i) a)) :
    ∃ t d, exec i s = .next t ∧ IsFirstOutside s d ∧ TakesFault .memoryOutOfRange (encode i) d s t := by
  obtain ⟨d, hd, hmax⟩ := s.rangeFault_some (n + 1) n.succ_pos h
  exact ⟨_, d, hcheck d hd, hmax, s.takesFault_raiseFault _ _ _⟩

/-! ## The digit store -/

/-- The byte at I + k after bytes are stored from I on (R42). -/
theorem State.readByte_storeBytes_add (s : State) {bs : List Byte} {k : Nat} (hk : k < bs.length) :
    (s.storeBytes bs).readByte (s.i.toNat + k) = bs[k] := by
  rw [State.readByte_storeBytes, if_pos (by omega), Nat.add_sub_cancel_left, List.getElem?_eq_getElem hk,
    Option.getD_some]

/-- `Fx33` stores the digits where the three bytes fit into the memory (R97). -/
theorem exec_ldBVx_of_le {s : State} (x : Reg) (h : s.i.toNat + 2 ≤ 0xFFF) :
    exec (.ldBVx x) s = .next (s.storeBytes (decimalDigits (s.getV x))) := by
  rw [exec, execLdBVx, s.rangeFault_none 3 (.inr h)]

/-- Settles O38: in range the three bytes stored are the digits, each below 256, and out of range the check of 3 bytes faults. -/
theorem digitStoreWritesThreeBytesOrFaults : Obligations.DigitStoreWritesThreeBytesOrFaults := by
  intro x s
  rw [← encXNN_eq_append_nibble]
  have hv := (s.getV x).isLt
  have hread (k : Nat) (hk : k < 3) := s.readByte_storeBytes_add (bs := decimalDigits (s.getV x)) hk
  refine ⟨decodeWord_encode (.ldBVx x), fun h => ⟨_, exec_ldBVx_of_le x h, ?_, ?_, ?_,
    s.memKeptOutside_storeBytes (decimalDigits_length _), s.onlyChanges_storeBytes _⟩,
    fun h => exec_takesMemoryFault h fun a ha => by rw [exec, execLdBVx, ha]⟩
  · exact (congrArg BitVec.toNat (hread 0 (by decide))).trans (Nat.mod_eq_of_lt (by omega))
  · exact (congrArg BitVec.toNat (hread 1 (by decide))).trans (Nat.mod_eq_of_lt (by omega))
  · exact (congrArg BitVec.toNat (hread 2 (by decide))).trans (Nat.mod_eq_of_lt (by omega))

/-! ## The register store and the register load -/

/-- Settles O39: in range the bytes stored are V0..Vx, and out of range the check of x + 1 bytes faults. -/
theorem registerStoreWritesV0ToVxOrFaults : Obligations.RegisterStoreWritesV0ToVxOrFaults := by
  intro x s
  rw [← encXNN_eq_append_nibble]
  exact ⟨decodeWord_encode (.ldMemVx x),
    fun h => ⟨_, exec_ldMemVx_of_le h, fun _ hk => s.readByte_storeBytes_regsUpTo hk,
      s.memKeptOutside_storeBytes (s.regsUpTo_length x), s.onlyChanges_storeBytes _⟩,
    fun h => exec_takesMemoryFault h fun a ha => by rw [exec, execLdMemVx, ha]⟩

/-- `Fx65` loads V0..Vx from I on where they lie inside the memory (R99). -/
theorem exec_ldVxMem_of_le {s : State} {x : Reg} (h : s.i.toNat + x.val ≤ 0xFFF) :
    exec (.ldVxMem x) s = .next { s with v := s.regsLoaded x } := by
  rw [exec, execLdVxMem, s.rangeFault_none (x.val + 1) (.inr h)]

/-- After V0..Vx are loaded from I on, V[k] is the byte at I + k (R99). -/
theorem State.getV_regsLoaded (s : State) {x k : Reg} (hk : k.val ≤ x.val) :
    State.getV { s with v := s.regsLoaded x } k = s.readByte (s.i.toNat + k.val) := by
  rw [State.getV, State.getElem_regsLoaded, if_pos hk]

/-- Settles O40: in range V0..Vx are loaded, and out of range the check of x + 1 bytes faults. -/
theorem registerLoadReadsV0ToVxOrFaults : Obligations.RegisterLoadReadsV0ToVxOrFaults := by
  intro x s
  rw [← encXNN_eq_append_nibble]
  exact ⟨decodeWord_encode (.ldVxMem x),
    fun h => ⟨_, exec_ldVxMem_of_le h, fun _ hk => s.getV_regsLoaded hk, fun _ hk => s.getV_regsLoaded_other hk,
      s.onlyChanges_v _⟩,
    fun h => exec_takesMemoryFault h fun a ha => by rw [exec, execLdVxMem, ha]⟩

end Sys2Proof.Machine
end

section
/-! SUPPORT. The display instructions: the cells the sprite of `Dxyn` lands on, the state a completed draw leaves, and from
them the two draws of R103 (1) and the collision of R103 (2) (44_display.md R100 to R103). -/

namespace Sys2Proof.Machine

/-! ## The clear -/

/-- Settles O42: the clear answers the blank display, and touches nothing else. -/
theorem clearTurnsEveryCellOff : Obligations.ClearTurnsEveryCellOff :=
  ⟨decodeWord_encode .cls, fun s => ⟨_, rfl, Display.cell_blank, s.onlyChanges_fb _⟩⟩

/-! ## The cells a sprite lands on -/

section
variable {s s' : State} {x y : Reg} {n : BitVec 4} {r : Fin 32} {c : Fin 64}

/-- The cells the 1 bits of the sprite of `Dxyn` land on, in the order they are drawn (R102). -/
def State.drwCells (s : State) (x y : Reg) (n : BitVec 4) : List (Fin 32 × Fin 64) :=
  spriteCells (s.originCol x) (s.originRow y) (s.loadBytes n.toNat)

theorem State.mem_drwCells : (r, c) ∈ s.drwCells x y n ↔ SpriteHits s x y n r c := by
  rw [State.drwCells, mem_spriteCells]
  constructor
  · rintro ⟨j, row, hrow, k, hk, hbit, rfl, rfl⟩
    obtain ⟨hj, -⟩ := List.getElem?_eq_some_iff.1 hrow
    rw [State.length_loadBytes] at hj
    rw [s.getElem?_loadBytes _ j hj] at hrow
    cases hrow
    exact ⟨j, k, hj, hk, hbit, rfl, rfl⟩
  · rintro ⟨j, k, hj, hk, hbit, hr, hc⟩
    exact ⟨j, _, s.getElem?_loadBytes _ j hj, k, hk, hbit, Fin.ext hr, Fin.ext hc⟩

/-- The cells a sprite lands on depend on its two registers, I and the memory alone. -/
theorem spriteHits_congr (hx : s'.getV x = s.getV x) (hy : s'.getV y = s.getV y) (hi : s'.i = s.i)
    (hmem : Part.same s s' .mem) : SpriteHits s' x y n r c ↔ SpriteHits s x y n r c := by
  have hmem : ∀ a, s'.readByte a = s.readByte a := hmem
  simp only [SpriteHits, hx, hy, hi, hmem]

theorem not_spriteHits_of_zero (h : ∀ j, j < n.toNat → s.readByte (s.i.toNat + j) = 0) : ¬ SpriteHits s x y n r c := by
  rintro ⟨j, k, hj, -, hbit, -⟩
  simp [h j hj] at hbit

end

/-! ## The state a completed draw leaves -/

section
variable {s : State} {x y : Reg} {n : BitVec 4}

/-- The state `Dxyn` leaves when it completes (R102). -/
def State.drawn (s : State) (x y : Reg) (n : BitVec 4) : State :=
  let k := draw (s.originCol x) (s.originRow y) (s.loadBytes n.toNat) s.fb
  State.setV { s with fb := k.1 } vf (collisionFlag k.2)

theorem exec_drw_of_inRange (h : SpriteInRange s n) : exec (.drw x y n) s = .next (s.drawn x y n) := by
  rw [exec, execDrw, s.rangeFault_none n.toNat h]
  rfl

theorem exec_drw_inRange_eq {t : State} (h : SpriteInRange s n) (ht : exec (.drw x y n) s = .next t) : t = s.drawn x y n := by
  rw [exec_drw_of_inRange h] at ht
  cases ht
  rfl

/-- A sprite has at most 15 rows, so it never lands twice on a cell. -/
theorem State.length_loadBytes_nibble_le : (s.loadBytes n.toNat).length ≤ 32 := by
  rw [State.length_loadBytes]
  omega

theorem State.cell_drawn (r : Fin 32) (c : Fin 64) : (s.drawn x y n).fb.cell r c =
    if (r, c) ∈ s.drwCells x y n then !s.fb.cell r c else s.fb.cell r c :=
  (draw_spec _ _ _ s.fb State.length_loadBytes_nibble_le).1 r c

theorem State.vf_drawn : (s.drawn x y n).getV 15 = flagByte ((s.drwCells x y n).any fun p => s.fb.cell p.1 p.2) :=
  (State.getV_setV_same ..).trans (congrArg flagByte (draw_spec _ _ _ s.fb State.length_loadBytes_nibble_le).2)

theorem State.cell_drawn_of_hits {r : Fin 32} {c : Fin 64} (h : SpriteHits s x y n r c) :
    (s.drawn x y n).fb.cell r c = !s.fb.cell r c := by
  rw [State.cell_drawn, if_pos (State.mem_drwCells.2 h)]

theorem State.cell_drawn_of_not_hits {r : Fin 32} {c : Fin 64} (h : ¬ SpriteHits s x y n r c) :
    (s.drawn x y n).fb.cell r c = s.fb.cell r c := by
  rw [State.cell_drawn, if_neg (mt State.mem_drwCells.1 h)]

theorem State.vf_drawn_of_collision (h : ∃ r c, SpriteHits s x y n r c ∧ s.fb.cell r c = true) :
    (s.drawn x y n).getV 15 = 1 := by
  obtain ⟨r, c, hhit, hon⟩ := h
  rw [State.vf_drawn, List.any_eq_true.2 ⟨(r, c), State.mem_drwCells.2 hhit, hon⟩]
  rfl

theorem State.vf_drawn_of_no_collision (h : ∀ r c, SpriteHits s x y n r c → s.fb.cell r c = false) :
    (s.drawn x y n).getV 15 = 0 := by
  rw [State.vf_drawn, List.any_eq_false.2 fun p hp => by rw [h p.1 p.2 (State.mem_drwCells.1 hp)]; decide]
  rfl

theorem State.regsKeptBut_drawn : RegsKeptBut [15] s (s.drawn x y n) :=
  State.regsKeptBut_setV { s with fb := _ } vf _

theorem State.onlyChanges_drawn : OnlyChanges [.v, .fb] s (s.drawn x y n) :=
  ((s.onlyChanges_fb _).trans (State.onlyChanges_setV _ vf _)).mono (by simp)

end

/-! ## The draw -/

/-- Settles O43: in range the instruction leaves the drawn state, and out of range the check of n bytes faults, n being
positive there. -/
theorem drawXorsTheSpriteAndReportsCollision : Obligations.DrawXorsTheSpriteAndReportsCollision := by
  intro x y n s
  rw [← encXYN_eq_append_nibble]
  refine ⟨decodeWord_encode (.drw x y n), fun h => ⟨_, exec_drw_of_inRange h, fun _ _ => State.cell_drawn_of_hits,
    fun _ _ => State.cell_drawn_of_not_hits, State.vf_drawn_of_collision, State.vf_drawn_of_no_collision,
    State.regsKeptBut_drawn, State.onlyChanges_drawn⟩, fun h => ?_⟩
  obtain ⟨hn, hi⟩ := not_or.1 h
  obtain ⟨m, hm⟩ := Nat.exists_eq_succ_of_ne_zero hn
  exact exec_takesMemoryFault (i := .drw x y n) (n := m) (by omega) fun a ha => by rw [exec, execDrw, hm, ha]

/-- Settles O44: both draws land on the same cells, so each of these is toggled twice, and the second draw finds it on
exactly where the first found it off. -/
theorem drawingTwiceRestoresTheDisplay : Obligations.DrawingTwiceRestoresTheDisplay := by
  intro x y n s t s' u hin ht hx hy hi hmem hfb hu
  obtain rfl := exec_drw_inRange_eq hin ht
  obtain rfl := exec_drw_inRange_eq (s := s') (by rwa [SpriteInRange, hi]) hu
  have hits (r c) : SpriteHits s' x y n r c ↔ SpriteHits s x y n r c := spriteHits_congr hx hy hi hmem
  have between (r c) (hit : SpriteHits s x y n r c) : s'.fb.cell r c = !s.fb.cell r c :=
    (hfb r c).trans (State.cell_drawn_of_hits hit)
  refine ⟨fun r c => ?_, ?_, fun hon => ?_, fun hzero => ⟨?_, ?_⟩⟩
  · by_cases hit : SpriteHits s x y n r c
    · rw [State.cell_drawn_of_hits ((hits r c).2 hit), between r c hit, Bool.not_not]
    · rw [State.cell_drawn_of_not_hits (mt (hits r c).1 hit), hfb r c, State.cell_drawn_of_not_hits hit]
  · rintro ⟨r, c, hit, hoff⟩
    exact State.vf_drawn_of_collision ⟨r, c, (hits r c).2 hit, by rw [between r c hit, hoff]; rfl⟩
  · refine State.vf_drawn_of_no_collision fun r c hit => ?_
    have hit := (hits r c).1 hit
    rw [between r c hit, hon r c hit]
    rfl
  · exact State.vf_drawn_of_no_collision fun _ _ hit => absurd hit (not_spriteHits_of_zero hzero)
  · exact State.vf_drawn_of_no_collision fun r c hit => absurd ((hits r c).1 hit) (not_spriteHits_of_zero hzero)

/-- Settles O45: the cells a draw turns off are the ones its sprite hits that were on. -/
theorem collisionIsACellTurnedOff : Obligations.CollisionIsACellTurnedOff := by
  intro x y n s t hin ht
  obtain rfl := exec_drw_inRange_eq hin ht
  constructor
  · rintro ⟨r, c, hon, hoff⟩
    have hit : SpriteHits s x y n r c := by
      by_contra hmiss
      rw [State.cell_drawn_of_not_hits hmiss, hon] at hoff
      cases hoff
    exact State.vf_drawn_of_collision ⟨r, c, hit, hon⟩
  · intro hnone
    refine State.vf_drawn_of_no_collision fun r c hit => Bool.eq_false_iff.2 fun hon => hnone ⟨r, c, hon, ?_⟩
    rw [State.cell_drawn_of_hits hit, hon]
    rfl

end Sys2Proof.Machine
end

section
/-! SUPPORT. The keypad instructions: the key skips with their fault, the key wait, the cycles it waits, and the host's key
that ends it (45_keypad.md R104 to R108; 10_state.md R31; 40_cycle.md R66). -/

namespace Sys2Proof.Machine

/-! ## The meanings, by what the keypad shows -/

section
variable {s : State} {x : Reg}

theorem exec_skp_of_le (h : (s.getV x).toNat ≤ 15) : exec (.skp x) s = .next (s.skipIf s.key[(s.getV x).toNat]) := by
  rw [exec, execSkp, s.keyAt_of_le _ h]

theorem exec_skp_of_gt (h : (s.getV x).toNat > 15) :
    exec (.skp x) s = .next (s.raiseFault .keyIndexOutOfRange (encode (.skp x)) (s.getV x).toWord) := by
  rw [exec, execSkp, s.keyAt_of_gt _ h]

theorem exec_sknp_of_le (h : (s.getV x).toNat ≤ 15) : exec (.sknp x) s = .next (s.skipIf !s.key[(s.getV x).toNat]) := by
  rw [exec, execSknp, s.keyAt_of_le _ h]

theorem exec_sknp_of_gt (h : (s.getV x).toNat > 15) :
    exec (.sknp x) s = .next (s.raiseFault .keyIndexOutOfRange (encode (.sknp x)) (s.getV x).toWord) := by
  rw [exec, execSknp, s.keyAt_of_gt _ h]

theorem exec_ldVxK_of_lowest {k : Fin 16} (h : s.key[k.val] = true) (hlow : ∀ j : Fin 16, j < k → s.key[j.val] = false) :
    exec (.ldVxK x) s = .next (s.setV x (BitVec.ofNat 8 k.val)) := by
  rw [exec, execLdVxK, s.lowestKey_some k h hlow]

theorem exec_ldVxK_of_none (h : ∀ k : Fin 16, s.key[k.val] = false) : exec (.ldVxK x) s = .next (s.setPc (s.pc - 2)) := by
  rw [exec, execLdVxK, s.lowestKey_none h]

end

/-! ## The key skips -/

theorem State.skipIf_not_pc (s : State) (c : Bool) : (s.skipIf !c).pc = if c = true then s.pc else s.pc + 2 := by
  cases c <;> rfl

/-- Settles O46: a value up to 15 names a key, on which each skip is one conditional write of pc, and a value above 15 is
the fault's detail. -/
theorem keySkipsTestTheKeyOrFault : Obligations.KeySkipsTestTheKeyOrFault := by
  intro x s
  simp only [← encXNN_eq_append_nibble]
  have hdetail : (s.getV x).toWord.toNat = (s.getV x).toNat := BitVec.toNat_setWidth_of_le (by decide)
  exact ⟨decodeWord_encode (.skp x), decodeWord_encode (.sknp x),
    fun h => ⟨⟨_, exec_skp_of_le h, s.skipIf_pc _, s.onlyChanges_skipIf _⟩,
      ⟨_, exec_sknp_of_le h, s.skipIf_not_pc _, s.onlyChanges_skipIf _⟩⟩,
    fun h => ⟨⟨_, _, exec_skp_of_gt h, hdetail, s.takesFault_raiseFault _ _ _⟩,
      ⟨_, _, exec_sknp_of_gt h, hdetail, s.takesFault_raiseFault _ _ _⟩⟩⟩

/-! ## The key wait -/

/-- Settles O47: the scan finds the lowest pressed key, an index that fits into a byte, or none. -/
theorem keyWaitTakesTheLowestKeyOrRepeats : Obligations.KeyWaitTakesTheLowestKeyOrRepeats := by
  intro x s
  rw [← encXNN_eq_append_nibble]
  refine ⟨decodeWord_encode (.ldVxK x), fun k hk hlow => ⟨_, exec_ldVxK_of_lowest hk hlow, ?_,
    State.regsKeptBut_setV s x _, s.onlyChanges_setV x _⟩,
    fun hnone => ⟨_, exec_ldVxK_of_none hnone, rfl, s.onlyChanges_setPc _⟩⟩
  rw [State.getV_setV_same, BitVec.toNat_ofNat]
  omega

/-- With no key pressed `Fx0A` puts the advanced pc back, so all that its cycle leaves is the tick (R61, R108, R110). -/
theorem RunsNext.step_wait {s : State} {x : Reg} (h : RunsNext s (.ldVxK x)) (hnone : ∀ k : Fin 16, s.key[k.val] = false) :
    step s = .next s.tick := by
  have ⟨hrun, _⟩ := h
  have hback : s.advance.setPc (s.advance.pc - 2) = s := by rw [State.advance_pc, BitVec.add_sub_cancel]; rfl
  rw [h.step_of_exec (exec_ldVxK_of_none hnone), hback, s.finish_of_running hrun]

/-- Settles O48, by induction on the number of cycles: each is a tick, after which the same wait runs next. -/
theorem keyWaitHoldsForAnyNumberOfCycles : Obligations.KeyWaitHoldsForAnyNumberOfCycles := by
  intro x s hnext hnone k
  induction k generalizing s with
  | zero => exact ⟨s, rfl, OnlyChanges.refl _ s, rfl, rfl⟩
  | succ k ih =>
    have htick := s.onlyChanges_tick
    obtain ⟨t, hrun, frame, hdt, hst⟩ := ih s.tick (hnext.of_onlyChanges htick (by simp) (by simp) (by simp)) hnone
    rw [State.tick_dt, tickDown_toNat] at hdt
    rw [State.tick_st, tickDown_toNat] at hst
    exact ⟨t, (core_run_succ (hnext.step_wait hnone)).trans hrun, (htick.trans frame).mono (by simp), by omega, by omega⟩

/-! ## A key the host presses during the wait -/

/-- A run of n + 1 cycles that answers a next state has a first cycle that answers one, and n cycles from there. -/
theorem core_run_succ_next {n : Nat} {s t : State} (h : Host.Core.run core (n + 1) s = .next t) :
    ∃ u, step s = .next u ∧ Host.Core.run core n u = .next t := by
  cases hs : step s with
  | next u => exact ⟨u, rfl, (core_run_succ hs).symm.trans h⟩
  | fault | refused =>
    have h := (Host.Core.run.eq_2 core s n).symm.trans h
    rw [show core.step s = _ from hs] at h
    cases h

/-- A run of n cycles that answers a next state is the session of n `cycle()` calls (R27, R30). -/
theorem session_cycles_of_run {n : Nat} {s t : State} (h : Host.Core.run core n s = .next t) :
    session (List.replicate n .cycle) s = t := by
  induction n generalizing s with
  | zero => cases h; rfl
  | succ n ih =>
    obtain ⟨u, hu, hrun⟩ := core_run_succ_next h
    rw [List.replicate_succ, session_cons, State.after_of_next (o := .cycle) hu, ih hrun]

/-- The cycle that ends the wait, k being the lowest pressed key (R108): the block, still Running, is past the `Fx0A`, with
k in Vx and every other register as it was. -/
theorem RunsNext.step_takes_key {s : State} {x : Reg} {k : Fin 16} (h : RunsNext s (.ldVxK x)) (hk : s.key[k.val] = true)
    (hlow : ∀ j : Fin 16, j < k → s.key[j.val] = false) :
    ∃ t, step s = .next t ∧ t.run = .running ∧ t.pc = s.pc + 2 ∧ (t.getV x).toNat = k.val ∧ RegsKeptBut [x] s t := by
  have ⟨hrun, _⟩ := h
  obtain ⟨-, htake, -⟩ := keyWaitTakesTheLowestKeyOrRepeats x s.advance
  obtain ⟨t, hexec, hx, hregs, frame⟩ := htake k hk hlow
  refine ⟨t.finish, h.step_of_exec hexec, ?_, ?_, ?_, fun r hr => ?_⟩
  · rw [State.finish_run]; exact (frame .run (by simp)).trans hrun
  · rw [State.finish_pc]; exact frame .pc (by simp)
  · rwa [State.getV_finish]
  · rw [State.getV_finish]; exact hregs r hr

/-- Settles O59: the n cycles change the timers only and `set_key` the keys only, so the wait still runs next, and k is the
one key pressed. -/
theorem keyPressedBetweenCyclesEndsTheWait : Obligations.KeyPressedBetweenCyclesEndsTheWait := by
  intro x s n k hnext hnone
  obtain ⟨t, hrun, hwait, -⟩ := keyWaitHoldsForAnyNumberOfCycles x s hnext hnone n
  obtain ⟨hset, -⟩ := setKeyWritesOneKeyOrRefuses k.val true t
  obtain ⟨u, hu, hk, hothers, hkey⟩ := hset (by omega)
  have frame := hwait.trans hkey
  have hlow (j : Fin 16) (hj : j < k) : u.key[j.val] = false :=
    (hothers j (by omega)).trans ((hwait .key (by simp) j).trans (hnone j))
  obtain ⟨w, hw, hwrun, hwpc, hwx, hwregs⟩ :=
    (hnext.of_onlyChanges frame (by simp) (by simp) (by simp)).step_takes_key hk hlow
  have hupc : u.pc = s.pc := frame .pc (by simp)
  rw [hupc] at hwpc
  have hsession : session (List.replicate n .cycle ++ [.setKey k.val true, .cycle]) s = w := by
    rw [session_append, session_cycles_of_run hrun, session_cons, State.after_of_next hu, session_cons,
      State.after_of_next (o := .cycle) hw, session_nil]
  have hinRun : ∀ o ∈ List.replicate n .cycle ++ [.setKey k.val true, .cycle], inRun o = true :=
    List.forall_mem_append.2 ⟨fun o ho => by rw [List.eq_of_mem_replicate ho, inRun], by simp [inRun]⟩
  exact ⟨w, hsession, hwrun, hwpc, hwx, fun r hr => (hwregs r hr).trans (frame .v (by simp) r),
    _, hinRun, hsession ▸ hwrun, hsession ▸ hwpc⟩

end Sys2Proof.Machine
end

section
/-! SUPPORT. The timers: what each instruction and each cycle leave in DT and ST, and the cycles of the three timer
instructions (46_timers.md R110 to R115; 60_exceptions.md R118). -/

namespace Sys2Proof.Machine

/-! ## The timers an instruction leaves -/

/-- DT as the instruction leaves it, before the tick of its cycle: only `Fx15` sets it (R113). -/
def State.dtLeftBy (s : State) : Instr → Byte
  | .ldDtVx x => s.getV x
  | _ => s.dt

/-- ST as the instruction leaves it, before the tick of its cycle: only `Fx18` sets it (R114). -/
def State.stLeftBy (s : State) : Instr → Byte
  | .ldStVx x => s.getV x
  | _ => s.st

theorem exec_dt {i : Instr} {s t : State} (h : exec i s = .next t) : t.dt = s.dtLeftBy i := by
  cases i
  case ldDtVx => cases h; rfl
  all_goals exact exec_onlyChanges h .dt (by simp [touchedParts])

theorem exec_st {i : Instr} {s t : State} (h : exec i s = .next t) : t.st = s.stLeftBy i := by
  cases i
  case ldStVx => cases h; rfl
  all_goals exact exec_onlyChanges h .st (by simp [touchedParts])

/-- An instruction that can halt the block has no timer among its parts. -/
theorem timers_not_mem_touchedParts_of_run {i : Instr} (h : Part.run ∈ touchedParts i) :
    Part.dt ∉ touchedParts i ∧ Part.st ∉ touchedParts i := by
  cases i <;> simp [touchedParts] at h ⊢

/-- An instruction that faults keeps both timers (R118). -/
theorem exec_halted_timers {i : Instr} {s t : State} {f : FaultRecord} (h : exec i s = .next t) (hs : s.run = .running)
    (ht : t.run = .halted f) : t.dt = s.dt ∧ t.st = s.st := by
  have frame := exec_onlyChanges h
  have hrun : Part.run ∈ touchedParts i := by
    by_contra hn
    have hkept : t.run = s.run := frame .run hn
    rw [ht, hs] at hkept
    cases hkept
  obtain ⟨hdt, hst⟩ := timers_not_mem_touchedParts_of_run hrun
  exact ⟨frame .dt hdt, frame .st hst⟩

/-! ## The timers a cycle leaves -/

/-- A cycle that completes ticks the timers its instruction left (R110). -/
theorem RunsNext.timers_of_running {s t : State} {i : Instr} (h : RunsNext s i) (hs : step s = .next t)
    (ht : t.run = .running) : t.dt.toNat = (s.dtLeftBy i).toNat - 1 ∧ t.st.toNat = (s.stLeftBy i).toNat - 1 := by
  obtain ⟨u, hu, rfl⟩ := h.step_next hs
  rw [State.finish_run] at ht
  rw [u.finish_of_running ht, State.tick_dt, State.tick_st, tickDown_toNat, tickDown_toNat, exec_dt hu, exec_st hu]
  exact ⟨rfl, rfl⟩

/-- A cycle that leaves the block Halted ticks nothing, whichever of its faults it raised (R110, R118). -/
theorem step_halted_timers {s t : State} {f : FaultRecord} (hs : step s = .next t) (ht : t.run = .halted f) :
    t.dt = s.dt ∧ t.st = s.st := by
  obtain ⟨hrun, ⟨-, rfl⟩ | ⟨op, -, -, rfl⟩ | ⟨op, i, u, -, -, hu, rfl⟩⟩ := step_next_cases hs
  · exact ⟨rfl, rfl⟩
  · exact ⟨rfl, rfl⟩
  · rw [State.finish_run] at ht
    rw [u.finish_of_halted f ht]
    exact exec_halted_timers (s := s.advance) hu hrun ht

/-- Settles O12, by how the cycle ends: completed, faulting, or on a block Halted already. -/
theorem everyCompletedCycleTicksTheTimers : Obligations.EveryCompletedCycleTicksTheTimers := by
  refine ⟨fun s t i h hs ht => h.timers_of_running hs ht, fun s t f => step_halted_timers, fun s t f hs h => ?_⟩
  rw [step_of_halted hs] at h
  cases h

/-! ## The timer instructions -/

/-- Settles O49: each of the three is one write, of Vx or of a timer. -/
theorem timerInstructionsMoveTheTimers : Obligations.TimerInstructionsMoveTheTimers := by
  intro x s
  simp only [← encXNN_eq_append_nibble]
  exact ⟨decodeWord_encode (.ldVxDt x), decodeWord_encode (.ldDtVx x), decodeWord_encode (.ldStVx x),
    ⟨_, rfl, s.getV_setV_same x _, s.regsKeptBut_setV x _, s.onlyChanges_setV x _⟩,
    ⟨_, rfl, rfl, s.onlyChanges_dt _⟩,
    ⟨_, rfl, rfl, s.onlyChanges_st _⟩⟩

/-- A cycle whose instruction answers a Running block ends in the tick (R60, R110). -/
theorem RunsNext.step_of_exec_running {s u : State} {i : Instr} (h : RunsNext s i) (hu : exec i s.advance = .next u)
    (hrun : u.run = .running) : step s = .next u.tick := by
  rw [h.step_of_exec hu, u.finish_of_running hrun]

/-- Settles O50: the write of each of the three comes before the tick. -/
theorem timerInstructionsThenTick : Obligations.TimerInstructionsThenTick := by
  refine fun x s => ⟨fun h => ?_, fun h => ?_, fun h => ?_⟩ <;> have ⟨hrun, _⟩ := h
  · exact ⟨_, h.step_of_exec_running rfl hrun, s.advance.getV_setV_same x _, tickDown_toNat _, tickDown_toNat _⟩
  · exact ⟨_, h.step_of_exec_running rfl hrun, tickDown_toNat _, tickDown_toNat _⟩
  · exact ⟨_, h.step_of_exec_running rfl hrun, tickDown_toNat _, tickDown_toNat _⟩

/-! ## The sound -/

theorem State.soundActive_eq_decide (s : State) : s.soundActive = decide (0 < s.st.toNat) := by
  rw [State.soundActive, Bool.eq_iff_iff, bne_iff_ne, decide_eq_true_iff, Nat.pos_iff_ne_zero, ne_eq, ne_eq,
    BitVec.toNat_eq]
  rfl

/-- Settles O51: after the tick ST is Vx less 1, which is above 0 exactly for Vx above 1. -/
theorem soundOfOneTickIsNeverSeen : Obligations.SoundOfOneTickIsNeverSeen := by
  intro x s h
  obtain ⟨-, -, hset⟩ := timerInstructionsThenTick x s
  obtain ⟨t, hs, hst, -⟩ := hset h
  refine ⟨t, hs, ?_⟩
  rw [t.soundActive_eq_decide, hst, decide_eq_decide]
  omega

end Sys2Proof.Machine
end

section
/-! SUPPORT. Faults and the reset: the one fault an instruction raises, what a faulting cycle leaves, the only way out of
Halted, and the state after `new()` (60_exceptions.md R117 to R120; 70_reset_and_hazards.md R130). -/

namespace Sys2Proof.Machine

/-! ## The fault of an instruction -/

/-- The instructions that touch the run state are those that have a fault of their own. -/
@[simp] theorem run_mem_touchedParts {i : Instr} : Part.run ∈ touchedParts i ↔ ∃ code, ownFault i = some code := by
  cases i <;> simp [touchedParts, ownFault]

/-- An instruction that changes the run state has raised its own fault, with its own encoding as the word, and done nothing
else (R117, R118). -/
theorem exec_eq_raiseFault_of_run_ne {i : Instr} {s t : State} (h : exec i s = .next t) (hne : t.run ≠ s.run) :
    ∃ code d, ownFault i = some code ∧ t = s.raiseFault code (encode i) d := by
  have hown : ∃ code, ownFault i = some code := by
    by_contra hnone
    exact hne (exec_onlyChanges h .run (mt run_mem_touchedParts.mp hnone))
  obtain ⟨code, hcode⟩ := hown
  refine ⟨code, ?_⟩
  cases i <;> cases hcode <;> simp only [exec] at h
  case ret =>
    unfold execRet at h
    split at h <;> cases h
    · next a u hu => rw [State.pop_some_eq hu] at hne; exact absurd rfl hne
    · exact ⟨_, rfl, rfl⟩
  case call =>
    unfold execCall at h
    split at h <;> cases h
    · next u hu => obtain ⟨stack, rfl⟩ := State.push_some_eq hu; exact absurd rfl hne
    · exact ⟨_, rfl, rfl⟩
  case skp | sknp =>
    simp only [execSkp, execSknp] at h
    split at h <;> cases h
    · exact absurd (s.skipIf_run _) hne
    · exact ⟨_, rfl, rfl⟩
  case drw | ldBVx | ldMemVx | ldVxMem =>
    simp only [execDrw, execLdBVx, execLdMemVx, execLdVxMem] at h
    split at h <;> cases h
    · exact ⟨_, rfl, rfl⟩
    · exact absurd rfl hne

/-- An instruction that leaves a Running block Halted has raised its own fault. -/
theorem exec_eq_raiseFault_of_halted {i : Instr} {s t : State} {f : FaultRecord} (h : exec i s = .next t)
    (hs : s.run = .running) (ht : t.run = .halted f) :
    ∃ code d, ownFault i = some code ∧ t = s.raiseFault code (encode i) d :=
  exec_eq_raiseFault_of_run_ne h (by simp [hs, ht])

/-- Settles O11: the instruction ran on the advanced state and left the block Halted, so it raised its own fault. -/
theorem instructionRaisesOnlyItsOwnFault : Obligations.InstructionRaisesOnlyItsOwnFault := by
  intro s t i f h hs ht
  have ⟨hrun, _⟩ := h
  obtain ⟨u, hu, rfl⟩ := h.step_next hs
  rw [State.finish_run] at ht
  obtain ⟨code, d, hcode, rfl⟩ := exec_eq_raiseFault_of_halted (s := s.advance) hu hrun ht
  cases ht
  exact hcode

/-! ## A cycle that faults -/

/-- A fault raised on the advanced state puts pc back, so only the run state differs from the cycle's start (R61, R118). -/
theorem State.raiseFault_advance (s : State) (code : FaultCode) (op d : Word) :
    s.advance.raiseFault code op d = { s with run := .halted ⟨code, s.pc, some op, d⟩ } := by
  rw [State.raiseFault, State.advance_pc, BitVec.add_sub_cancel]
  rfl

/-- A cycle that leaves the block Halted changes the run state alone, to a record of the pc and of what was fetched there,
if anything (R117, R118). -/
theorem step_halted_eq {s t : State} {f : FaultRecord} (hs : step s = .next t) (ht : t.run = .halted f) :
    t = { s with run := .halted f } ∧ f.addr = s.pc ∧ f.opcode = s.fetch := by
  obtain ⟨hrun, ⟨hf, rfl⟩ | ⟨op, hf, -, rfl⟩ | ⟨op, i, u, hf, hdec, hu, rfl⟩⟩ := step_next_cases hs
  · cases ht; exact ⟨rfl, rfl, hf.symm⟩
  · cases ht; exact ⟨rfl, rfl, hf.symm⟩
  · rw [State.finish_run] at ht
    rw [u.finish_of_halted f ht]
    obtain ⟨code, d, -, rfl⟩ := exec_eq_raiseFault_of_halted (s := s.advance) hu hrun ht
    rw [encodeOfDecodeIsTheWord op i hdec, State.raiseFault_advance] at ht ⊢
    cases ht
    exact ⟨rfl, rfl, hf.symm⟩

/-- Settles O10: the record's word is what the fetch answered, none above 0xFFE and else the word at pc. -/
theorem faultingCycleCommitsNothing : Obligations.FaultingCycleCommitsNothing := by
  intro s t f _ hs ht
  obtain ⟨heq, haddr, hop⟩ := step_halted_eq hs ht
  exact ⟨heq, haddr, fun hpc => hop.trans (s.fetch_of_gt hpc), fun op hword => hop.trans hword.fetch⟩

/-! ## Leaving Halted -/

/-- Settles O16, by the cases of a completed host operation: a cycle does not complete on a Halted block, and `load` and
`set_key` keep the run state. -/
theorem onlyNewLeavesHalted : Obligations.OnlyNewLeavesHalted := by
  intro o s t f hrun h
  obtain ⟨rfl, rfl⟩ | ⟨bytes, rfl, -, rfl⟩ | ⟨rfl, hs⟩ | ⟨index, pressed, hi, rfl, rfl⟩ := applyOp_next_cases h
  · exact ⟨fun hne => absurd rfl hne, fun _ => ⟨rfl, rfl⟩⟩
  · exact ⟨fun _ => hrun, nofun⟩
  · rw [step_of_halted hrun] at hs
    cases hs
  · exact ⟨fun _ => hrun, nofun⟩

/-! ## The reset -/

/-- Settles O13: the reset state is the one for the default FONT. -/
theorem resetMeetsTheInvariant : Obligations.ResetMeetsTheInvariant :=
  ⟨State.resetWith_inv _, State.resetWith_inv⟩

/-- `new()` leaves every element at its reset value, whatever the state before it (R130). -/
theorem State.isFresh_renew (s : State) : IsFresh s.renew :=
  ⟨rfl, rfl, rfl, rfl, rfl, rfl, fun r => by simp [State.getV, State.renew, State.resetWith],
    fun k => by simp [State.renew, State.resetWith], fun k => by simp [State.renew, State.resetWith],
    Display.cell_blank, unlisted_font, fun _ _ hout => State.readByte_resetWith_outside s.font hout⟩

/-- Settles O52: the reset state is what `new()` makes of it again. -/
theorem newLeavesEveryElementAtItsResetValue : Obligations.NewLeavesEveryElementAtItsResetValue :=
  ⟨State.reset.isFresh_renew, fun s => ⟨_, rfl, s.isFresh_renew, rfl⟩⟩

end Sys2Proof.Machine
end
